-- ==== Sys2Proof/Word.lean ====
section
/-! DEFINITION. The word type of the stream (20_memory R58: a sequence of 8-bit bytes). -/

namespace Sys2Proof

/-- One byte of the stream, a buffer or a payload; bit 7 is the most significant (00_scope R7). -/
abbrev Byte := BitVec 8

end Sys2Proof
end

