-- ==== Sys2Proof/Syntax.lean ====
section
/-! DEFINITION. The instructions: one constructor per row of spec/opcode_table.json, their operand types, the formats a
word can reach the block in, and the reasons a word is no instruction. -/

namespace Sys2Proof

/-- A packet record (10_state R38). `flag0`, `flag1`, `flag2` are the spec's `flags[0..2]`, the top three bits of frame
byte 1 in order; the marker is not stored. -/
structure Packet where
  flag0 : Bool
  flag1 : Bool
  flag2 : Bool
  pid : BitVec 13
  payload : List Byte
  deriving DecidableEq, Repr

/-- The status registers of 30_encoding R93, in the order of their numbers 0..8. -/
inductive Csr where
  | status
  | result
  | bytesRead
  | bytesParsed
  | packetsParsed
  | errBytesRead
  | errBytesParsed
  | errPackets
  | cap
  deriving DecidableEq, Repr

/-- The operations of the opcode table, their operands pulled out of the encoding. -/
inductive Instr where
  /-- DECODE (42_decode R157): the operand is a whole legal TSFRAME, that is, its marker and this record; the table's 24
  bits are the header, the 185 payload bytes are operand bytes above them. -/
  | decode (pkt : Packet)
  /-- SYNCHRONIZE (41_synchronize R142): no operand. -/
  | synchronize
  /-- FILL L (40_fill R122): the slot capacity `C[15:0]`. -/
  | fill (cap : BitVec 16)
  /-- RD r (43_host_access R166). -/
  | rd (reg : Csr)
  /-- RESET (43_host_access R167). -/
  | reset
  deriving DecidableEq, Repr

/-- What can reach the block, in the format of the path it comes by (30_encoding R80). -/
inductive Request where
  /-- `CMD32`, a word the host issues (R90). -/
  | command (word : BitVec 32)
  /-- `TSFRAME`, the buffer bytes an internal DECODE is invoked on (R81). -/
  | frame (bytes : List Byte)
  /-- `SYNCPAT`, the bytes WIN[o], WIN[o+188], WIN[o+376] (R87) with which an internal SYNCHRONIZE is named. -/
  | pattern (first second third : Byte)
  deriving DecidableEq, Repr

/-- Why a request is no instruction. -/
inductive Reject where
  /-- A command word that no row of 30_encoding R91 matches (R92). -/
  | reservedCommand (word : BitVec 32)
  /-- A frame buffer of fewer than 188 bytes (42_decode R151). -/
  | bufferTooSmall
  /-- A frame whose byte 0 is not 0x47, the one illegal frame (30_encoding R88). -/
  | noMarkerPresent
  /-- Three bytes that are not all 0x47 (30_encoding R87). -/
  | patternMismatch
  deriving DecidableEq, Repr

/-- What the decoder makes of a request: an instruction, or the reason it is none. -/
inductive Decoded where
  | instr (i : Instr)
  | reject (r : Reject)
  deriving DecidableEq, Repr

/-- True of what the host can issue; SYNCHRONIZE and DECODE have no command (00_scope R3, 43_host_access R165). -/
def Request.isCommand : Request → Bool
  | .command _ => true
  | .frame _ => false
  | .pattern _ _ _ => false

end Sys2Proof
end

