-- ==== Sys2Proof/WellFormed.lean ====
section
/-! DEFINITION. When an instruction is one the encoding can carry. -/

namespace Sys2Proof

/-- "payload length is exactly 185" (30_encoding R85, 10_state R38). -/
def Packet.wf (p : Packet) : Bool := p.payload.length == 185

/-- DECODE's operand is a whole frame; the other operands are as wide as their fields (30_encoding R90, R91: FILL with
`arg = 0` or `arg > SLOTS_MAX` is decodable, and refused when it is executed). -/
def Instr.wf : Instr → Bool
  | .decode pkt => pkt.wf
  | .synchronize => true
  | .fill _ => true
  | .rd _ => true
  | .reset => true

end Sys2Proof
end

