-- ==== Sys2Proof/Decode.lean ====
section
/-! DEFINITION. The decoder, total on every request and rejecting by name, and after it the encoder (30_encoding). -/

namespace Sys2Proof

/-- The constant MARKER (00_scope R5). -/
def marker : Byte := 0x47#8

/-- `buf[i]` (00_scope R8). The rules read only indices below `len(buf)` (20_memory R61). -/
def byteAt (buf : List Byte) (i : Nat) : Byte := buf.getD i 0#8

/-- `flags[0] = b[1][7]` (30_encoding R84). -/
def headerFlag0 (b1 : Byte) : Bool := b1.getLsbD 7

/-- `flags[1] = b[1][6]` (30_encoding R84). -/
def headerFlag1 (b1 : Byte) : Bool := b1.getLsbD 6

/-- `flags[2] = b[1][5]` (30_encoding R84). -/
def headerFlag2 (b1 : Byte) : Bool := b1.getLsbD 5

/-- `pid = ((b[1] & 0x1F) << 8) | b[2]`, computed in 13 bits (30_encoding R83, 42_decode R154). -/
def headerPid (b1 b2 : Byte) : BitVec 13 := (b1 &&& 0x1F#8).setWidth 13 <<< 8 ||| b2.setWidth 13

/-- `MemRead(buf, off + 3, 185)` (42_decode R155). -/
def payloadAt (buf : List Byte) (off : Nat) : List Byte := (buf.drop (off + 3)).take 185

/-- The record of the frame at `buf[off..off+188)`, a pure function of those bytes (42_decode R157). -/
def packetAt (buf : List Byte) (off : Nat) : Packet where
  flag0 := headerFlag0 (byteAt buf (off + 1))
  flag1 := headerFlag1 (byteAt buf (off + 1))
  flag2 := headerFlag2 (byteAt buf (off + 1))
  pid := headerPid (byteAt buf (off + 1)) (byteAt buf (off + 2))
  payload := payloadAt buf off

/-- The register a number names; numbers above 8 are reserved (30_encoding R92, R93). -/
def csrOfNumber : Nat → Option Csr
  | 0 => some .status
  | 1 => some .result
  | 2 => some .bytesRead
  | 3 => some .bytesParsed
  | 4 => some .packetsParsed
  | 5 => some .errBytesRead
  | 6 => some .errBytesParsed
  | 7 => some .errPackets
  | 8 => some .cap
  | _ => none

/-- `op = C[31:28]` (30_encoding R90). -/
def commandOp (w : BitVec 32) : BitVec 4 := w.extractLsb' 28 4

/-- `zero = C[27:16]` (30_encoding R90). -/
def commandZero (w : BitVec 32) : BitVec 12 := w.extractLsb' 16 12

/-- `arg = C[15:0]` (30_encoding R90). -/
def commandArg (w : BitVec 32) : BitVec 16 := w.extractLsb' 0 16

/-- CMD32 (30_encoding R90 to R92). -/
def decodeCommand (w : BitVec 32) : Decoded :=
  if commandZero w ≠ 0#12 then .reject (.reservedCommand w)
  else if commandOp w = 0x1#4 then .instr (.fill (commandArg w))
  else if commandOp w = 0x2#4 then
    match csrOfNumber (commandArg w).toNat with
    | some r => .instr (.rd r)
    | none => .reject (.reservedCommand w)
  else if commandOp w = 0xF#4 then
    if commandArg w = 0#16 then .instr .reset else .reject (.reservedCommand w)
  else .reject (.reservedCommand w)

/-- TSFRAME: the length first, then the marker, then the fields (42_decode R151, R152, R157). -/
def decodeFrame (bytes : List Byte) : Decoded :=
  if bytes.length < 188 then .reject .bufferTooSmall
  else if byteAt bytes 0 ≠ marker then .reject .noMarkerPresent
  else .instr (.decode (packetAt bytes 0))

/-- SYNCPAT: match 0x474747, mask 0xFFFFFF (30_encoding R87). -/
def decodePattern (b0 b1 b2 : Byte) : Decoded :=
  if b0 = marker ∧ b1 = marker ∧ b2 = marker then .instr .synchronize else .reject .patternMismatch

/-- The decoder. -/
def decode : Request → Decoded
  | .command w => decodeCommand w
  | .frame bytes => decodeFrame bytes
  | .pattern b0 b1 b2 => decodePattern b0 b1 b2

/-- Frame byte 1: the three flags above `pid[12:8]` (30_encoding R82). -/
def headerByte1 (p : Packet) : Byte :=
  BitVec.ofBool p.flag0 ++ BitVec.ofBool p.flag1 ++ BitVec.ofBool p.flag2 ++ p.pid.extractLsb' 8 5

/-- Frame byte 2: `pid[7:0]` (30_encoding R82). -/
def headerByte2 (p : Packet) : Byte := p.pid.extractLsb' 0 8

/-- The TSFRAME of a record (30_encoding R81). -/
def encodeFrame (p : Packet) : List Byte := marker :: headerByte1 p :: headerByte2 p :: p.payload

/-- The register numbers of 30_encoding R93. -/
def csrNumber : Csr → BitVec 16
  | .status => 0#16
  | .result => 1#16
  | .bytesRead => 2#16
  | .bytesParsed => 3#16
  | .packetsParsed => 4#16
  | .errBytesRead => 5#16
  | .errBytesParsed => 6#16
  | .errPackets => 7#16
  | .cap => 8#16

/-- The encoder (30_encoding R81, R87, R91). -/
def encode : Instr → Request
  | .decode pkt => .frame (encodeFrame pkt)
  | .synchronize => .pattern marker marker marker
  | .fill cap => .command (0x1000#16 ++ cap)
  | .rd reg => .command (0x2000#16 ++ csrNumber reg)
  | .reset => .command 0xF0000000#32

/-- The request whose table bits are `w`: a 32-bit word is a CMD32; a 24-bit word lies with bits 23:16 first, and is the
SYNCPAT word 0x474747 or else the header of a TSFRAME whose 185 operand bytes are zero. 0x474747 is both; without the path
it came by it is taken as the SYNCHRONIZE row's only word (DESIGN CHOICE, log 13). -/
def tableRequest (nbits w : Nat) : Option Request :=
  if nbits = 32 then some (.command (BitVec.ofNat 32 w))
  else if nbits = 24 then
    if w = 0x474747 then some (.pattern (BitVec.ofNat 8 (w / 65536)) (BitVec.ofNat 8 (w / 256)) (BitVec.ofNat 8 w))
    else some (.frame (BitVec.ofNat 8 (w / 65536) :: BitVec.ofNat 8 (w / 256) :: BitVec.ofNat 8 w :: List.replicate 185 0#8))
  else none

/-- What the decoder reads from an instruction whose table bits are `w`. -/
def decodeTableWord (nbits w : Nat) : Option Instr :=
  match tableRequest nbits w with
  | none => none
  | some r =>
    match decode r with
    | .instr i => some i
    | .reject _ => none

end Sys2Proof
end

