-- ==== Sys2Proof/Config.lean ====
section
/-! DEFINITION. What an implementation fixes (00_scope R6) and the free values the spec leaves open (93 U10, 20_memory R51). -/

namespace Sys2Proof

/-- The open parameters of 00_scope R6, "which the model takes as arguments". They stand in State as plain data that no
step changes, so that every statement holds for every choice of them (log 5). -/
structure Config where
  /-- `CTR_W`, the width in bits of the counters and of RD's result. -/
  ctrW : Nat
  /-- `SLOTS_MAX`, the number of output slots that exist. -/
  slotsMax : Nat
  deriving DecidableEq, Repr

/-- 3 ≤ SLOTS_MAX ≤ 65535 (00_scope R6); CTR_W holds the widest packed register, RESULT, whose bits are 18..0
(30_encoding R93; DEDUCED, log 6). -/
abbrev Config.Ok (c : Config) : Prop := 19 ≤ c.ctrW ∧ 3 ≤ c.slotsMax ∧ c.slotsMax ≤ 65535

/-- FREE VALUE (log 4): byte `i` of an endless source, counted from some fixed point of the stream. -/
opaque Config.endlessByte : Nat → Byte

/-- FREE VALUE (log 9): byte `i` of WIN after the `e`-th RESET. -/
opaque Config.freeWinByte : (e i : Nat) → Byte

/-- FREE VALUE (log 9): byte `i` of FRM after the `e`-th RESET. -/
opaque Config.freeFrmByte : (e i : Nat) → Byte

/-- FREE VALUE (log 10): `flags[i]` of SLOT[k] when nothing has written the slot since the `e`-th RESET. -/
opaque Config.freeSlotFlag : (e k i : Nat) → Bool

/-- FREE VALUE (log 10): the `pid` of SLOT[k] when nothing has written the slot since the `e`-th RESET. -/
opaque Config.freeSlotPid : (e k : Nat) → BitVec 13

/-- FREE VALUE (log 10): payload byte `j` of SLOT[k] when nothing has written the slot since the `e`-th RESET. -/
opaque Config.freeSlotByte : (e k j : Nat) → Byte

end Sys2Proof
end

