-- ==== Sys2Proof/Machine/State.lean ====
section
/-! DEFINITION. The state of TSSD (10_state R20) with its inputs beside it, as plain data; its reset value; the reasons a
step can stop. -/

namespace Sys2Proof.Machine

/-- The control state PSTATE (10_state R21). -/
inductive PState where
  | unsync
  | sync
  | exhausted
  | faulted
  deriving DecidableEq, Repr

/-- The error kinds and NONE (60_exceptions R180; 30_encoding R94). Codes 5..7 are never produced and have no name. -/
inductive ErrKind where
  | none
  | bufferTooSmall
  | noMarkerPresent
  | streamTruncated
  | endOfStream
  deriving DecidableEq, Repr

/-- What DECODE returns to its caller (42_decode R150). -/
inductive DecodeResult where
  | ok (pkt : Packet)
  | err (e : ErrKind)
  deriving DecidableEq, Repr

/-- What SYNCHRONIZE returns to its caller (41_synchronize R130). -/
inductive SyncResult where
  | ok (p0 p1 p2 : Packet)
  | err (e : ErrKind)
  deriving DecidableEq, Repr

/-- What the latest completed operation gave back to the one that invoked it (log 14). -/
inductive Answer where
  /-- No operation has completed since the machine came up. -/
  | nothing
  /-- RESET, which returns no value (43_host_access R167). -/
  | done
  /-- FILL's pair `(count, error)` (00_scope R11). -/
  | filled (count : BitVec 16) (e : ErrKind)
  /-- RD's value, an unsigned number (43_host_access R166). -/
  | value (v : Nat)
  /-- DECODE's result, when DECODE is run alone (log 12). -/
  | decoded (r : DecodeResult)
  /-- SYNCHRONIZE's result, when SYNCHRONIZE is run alone (log 12). -/
  | synced (r : SyncResult)
  deriving DecidableEq, Repr

/-- What the byte source has after the bytes it lists (log 3). -/
inductive SourceEnd where
  /-- It ends: it is exhausted once the listed bytes are consumed, and for good (20_memory R54). -/
  | ended
  /-- It neither ends nor supplies another byte: a read that needs one never completes (20_memory R55). -/
  | silent
  /-- It is endless (20_memory R51): the bytes of the free stream from index `next` on follow (log 4). -/
  | endless (next : Nat)
  deriving DecidableEq, Repr

/-- The byte source from its cursor on (20_memory R51): the bytes still to be read, then how it goes on. -/
structure Source where
  bytes : List Byte
  after : SourceEnd
  deriving DecidableEq, Repr

/-- The machine: the state elements of 10_state R20, then what is not TSSD state but decides what a step does. -/
structure State where
  /-- The open parameters (00_scope R6); no step changes them (log 5). -/
  cfg : Config
  /-- PSTATE (R21). -/
  pstate : PState
  /-- bytesRead (R23), below 2^CTR_W (log 6). -/
  bytesRead : Nat
  /-- bytesParsed (R24), below 2^CTR_W. -/
  bytesParsed : Nat
  /-- packetsParsed (R25), below 2^CTR_W. -/
  packetsParsed : Nat
  /-- WIN, 564 bytes (R28). -/
  win : List Byte
  /-- FRM, 188 bytes (R29). -/
  frm : List Byte
  /-- SLOT (R30): the records written since the latest reset, by strictly rising slot index (log 10). -/
  slots : List (Nat × Packet)
  /-- RES_COUNT (R31). -/
  resCount : BitVec 16
  /-- RES_ERR (R31). -/
  resErr : ErrKind
  /-- ERR_BYTES_READ (R32). -/
  errBytesRead : Nat
  /-- ERR_BYTES_PARSED (R32). -/
  errBytesParsed : Nat
  /-- ERR_PACKETS (R32). -/
  errPackets : Nat
  /-- INPUT: the byte source (20_memory R51). -/
  src : Source
  /-- INPUT: what has been issued to the block and not yet taken, oldest first (log 1). -/
  pending : List Request
  /-- OUTPUT: what the latest completed operation returned (log 14). -/
  answer : Answer
  /-- The model's own: the number of RESET commands so far, which selects the free values of WIN, FRM and unwritten
  slots (log 9, log 10). -/
  resets : Nat
  deriving DecidableEq, Repr

/-- Why the machine stops for good. -/
inductive Fault where
  /-- Raised by SYNCHRONIZE and FILL on a source that neither supplies the bytes of a read nor ends: the read has no step
  and the operation never completes (20_memory R55, 93 U6: `stuck`). Safe: nothing is claimed of what follows. -/
  | sourceBlocked
  /-- Raised by the host's own slot read of SLOT[k] with k ≥ SLOTS_MAX, which does not exist (20_memory R50); no operation
  raises it. Safe. -/
  | noSuchSlot (k : Nat)
  deriving DecidableEq, Repr

/-- Why an operation is given no meaning. -/
inductive Refusal where
  /-- Raised by exec's arm of an instruction that has no meaning yet; no arm is left so. Safe. -/
  | notModelled (mnemonic : String)
  /-- Raised by fetching a command word that 30_encoding R92 reserves (93 U8: `refuse`). Safe. -/
  | reservedCommand (word : BitVec 32)
  /-- Raised by fetching three bytes that are not the pattern SYNCPAT: they name no operation (30_encoding R87). Safe. -/
  | patternMismatch
  /-- Raised by FILL with a capacity outside 40_fill R111 (93 U2: `refuse`). Safe. -/
  | fillOutOfContract
  /-- Raised by SYNCHRONIZE run alone while PSTATE ≠ UNSYNC: it "is invoked only when unsynchronized" (41_synchronize
  R130; DEDUCED, log 16). Safe. -/
  | synchronizeOutOfContract
  /-- Raised by DECODE, SYNCHRONIZE and FILL when a counter would pass 2^CTR_W − 1 (00_scope R6, 93 U9: `refuse`). Safe. -/
  | counterOverflow
  deriving DecidableEq, Repr

/-- What an operation inside the machine ends with: a value, a fault or a refusal. -/
abbrev Outcome (α : Type) := Host.Outcome α Fault Refusal

/-- The machine right after reset (10_state R37, 70 R210). CTR_W is the spec's default (R6). DESIGN CHOICE: SLOTS_MAX is
the largest the spec allows (log 5); WIN and FRM hold zeros (log 8); no slot is listed (log 10); the source is empty and
ended (log 11); nothing is pending (log 1). -/
def State.reset : State where
  cfg := ⟨64, 65535⟩
  pstate := .unsync
  bytesRead := 0
  bytesParsed := 0
  packetsParsed := 0
  win := List.replicate 564 0#8
  frm := List.replicate 188 0#8
  slots := []
  resCount := 0#16
  resErr := .none
  errBytesRead := 0
  errBytesParsed := 0
  errPackets := 0
  src := ⟨[], .ended⟩
  pending := []
  answer := .nothing
  resets := 0

end Sys2Proof.Machine
end

