-- ==== Sys2Proof/Machine/Flags.lean ====
section
/-! DEFINITION. The status flag and the numeric codes: PSTATE, error kinds, the packed registers STATUS and RESULT. The
three flags of a packet are data and stand in Sys2Proof/Decode.lean. -/

namespace Sys2Proof.Machine

/-- The one status flag: `synchronized = (PSTATE ≠ UNSYNC)` (10_state R22, R34). -/
def State.synchronized (s : State) : Bool := s.pstate != .unsync

/-- PSTATE codes (30_encoding R95). -/
def PState.code : PState → BitVec 2
  | .unsync => 0#2
  | .sync => 1#2
  | .exhausted => 2#2
  | .faulted => 3#2

/-- Error kind codes (30_encoding R94). -/
def ErrKind.code : ErrKind → BitVec 3
  | .none => 0#3
  | .bufferTooSmall => 1#3
  | .noMarkerPresent => 2#3
  | .streamTruncated => 3#3
  | .endOfStream => 4#3

/-- STATUS: `[1:0]` PSTATE code, `[2]` synchronized (30_encoding R93). -/
def State.statusWord (s : State) : BitVec 3 := BitVec.ofBool s.synchronized ++ s.pstate.code

/-- RESULT: `[15:0]` RES_COUNT, `[18:16]` RES_ERR code (30_encoding R93). -/
def State.resultWord (s : State) : BitVec 19 := s.resErr.code ++ s.resCount

end Sys2Proof.Machine
end

