-- ==== Sys2Proof/Machine/Operands.lean ====
section
/-! DEFINITION. The operand forms: status registers by name, the window's sync pattern, slots by index. -/

namespace Sys2Proof.Machine

/-- `zext_CTR_W(csr[r])` (43_host_access R166, 30_encoding R93), as the unsigned number it is. -/
def State.csr (s : State) : Csr → Nat
  | .status => s.statusWord.toNat
  | .result => s.resultWord.toNat
  | .bytesRead => s.bytesRead
  | .bytesParsed => s.bytesParsed
  | .packetsParsed => s.packetsParsed
  | .errBytesRead => s.errBytesRead
  | .errBytesParsed => s.errBytesParsed
  | .errPackets => s.errPackets
  | .cap => s.cfg.slotsMax

/-- SYNCPAT at offset `o` of the window: exactly when the decoder takes the three bytes for SYNCHRONIZE's pattern
(30_encoding R87). -/
def syncAt (win : List Byte) (o : Nat) : Bool :=
  decodePattern (byteAt win o) (byteAt win (o + 188)) (byteAt win (o + 376)) == .instr .synchronize

/-- The lowest of the offsets 0..187 at which the window holds SYNCPAT (41_synchronize R133). -/
def findSync (win : List Byte) : Option Nat := (List.range 188).find? (syncAt win)

/-- The record listed for slot `k`. -/
def slotLookup (k : Nat) : List (Nat × Packet) → Option Packet
  | [] => none
  | (j, p) :: rest => if j = k then some p else slotLookup k rest

/-- `MemWrite(SLOT, k, p)`: all three fields of SLOT[k] at once, and no other slot (20_memory R62). -/
def slotWrite (k : Nat) (p : Packet) : List (Nat × Packet) → List (Nat × Packet)
  | [] => [(k, p)]
  | (j, q) :: rest =>
    if k < j then (k, p) :: (j, q) :: rest
    else if k = j then (k, p) :: rest
    else (j, q) :: slotWrite k p rest

/-- The one form of a slot list: indices strictly rising (log 10). -/
abbrev SlotsRising (slots : List (Nat × Packet)) : Prop := slots.Pairwise (fun a b => a.1 < b.1)

/-- What SLOT[k] holds when nothing has written it since the `e`-th RESET: an unspecified record, a free value
(10_state R37, 93 U10; log 10). -/
def freeSlot (e k : Nat) : Packet where
  flag0 := Config.freeSlotFlag e k 0
  flag1 := Config.freeSlotFlag e k 1
  flag2 := Config.freeSlotFlag e k 2
  pid := Config.freeSlotPid e k
  payload := (List.range 185).map (Config.freeSlotByte e k)

/-- The host's read of SLOT[k] between operations: it has no command word and no side effect (43_host_access R169). -/
def State.readSlot (s : State) (k : Nat) : Outcome Packet :=
  if k < s.cfg.slotsMax then .next ((slotLookup k s.slots).getD (freeSlot s.resets k)) else .fault (.noSuchSlot k)

end Sys2Proof.Machine
end

