-- ==== Sys2Proof/Machine/Ops.lean ====
section
/-! DEFINITION. The named operations the instructions share: the source read with its accounting, DECODE of a buffer,
slot writes, ending a FILL (the error record: this machine's exception entry), reset, and taking in a request. -/

namespace Sys2Proof.Machine

/-- Goes on with the value of `o`, or stops as `o` stops. -/
def andThen {α β : Type} (o : Outcome α) (k : α → Outcome β) : Outcome β :=
  match o with
  | .next a => k a
  | .fault f => .fault f
  | .refused r => .refused r

/-- The bytes `SrcReadFull(n)` returns, `m = min(n, remaining)` of them (20_memory R52); none where the source has neither
the bytes nor an end (R55). -/
def Source.take (n : Nat) (src : Source) : Option (List Byte) :=
  if n ≤ src.bytes.length then some (src.bytes.take n)
  else
    match src.after with
    | .ended => some src.bytes
    | .silent => none
    | .endless next => some (src.bytes ++ (List.range (n - src.bytes.length)).map (fun i => Config.endlessByte (next + i)))

/-- The source with its cursor `m` bytes further on (20_memory R52); the free stream is entered where the listed bytes
run out. -/
def Source.advance (m : Nat) (src : Source) : Source :=
  ⟨src.bytes.drop m,
    match src.after with
    | .ended => .ended
    | .silent => .silent
    | .endless next => .endless (next + (m - src.bytes.length))⟩

/-- `bytesRead <- bytesRead + m` (20_memory R53), refused where the counter cannot hold it (00_scope R6). -/
def countRead (m : Nat) (s : State) : Outcome State :=
  if s.bytesRead + m < 2 ^ s.cfg.ctrW then .next { s with bytesRead := s.bytesRead + m } else .refused .counterOverflow

/-- `(bytes, m) <- SrcReadFull(n); bytesRead <- bytesRead + m` (20_memory R52, R53): `m` is the number of bytes returned. -/
def srcReadFull (n : Nat) (s : State) : Outcome (List Byte × State) :=
  match s.src.take n with
  | none => .fault .sourceBlocked
  | some bytes =>
    andThen (countRead bytes.length s) fun t => .next (bytes, { t with src := t.src.advance bytes.length })

/-- `packetsParsed <- packetsParsed + 1; bytesParsed <- bytesParsed + 188` (42_decode R156), the single place where the two
change; refused where a counter cannot hold it (00_scope R6). -/
def countPacket (s : State) : Outcome State :=
  if s.packetsParsed + 1 < 2 ^ s.cfg.ctrW ∧ s.bytesParsed + 188 < 2 ^ s.cfg.ctrW then
    .next { s with packetsParsed := s.packetsParsed + 1, bytesParsed := s.bytesParsed + 188 }
  else .refused .counterOverflow

/-- `DECODE(buf, off)` (42_decode R157). -/
def decodeBuf (buf : List Byte) (off : Nat) (s : State) : Outcome (DecodeResult × State) :=
  if buf.length < off + 188 then .next (.err .bufferTooSmall, s)
  else if byteAt buf off ≠ marker then .next (.err .noMarkerPresent, s)
  else andThen (countPacket s) fun t => .next (.ok (packetAt buf off), t)

/-- `SLOT[k] <- p` (20_memory R62). -/
def State.setSlot (k : Nat) (p : Packet) (s : State) : State := { s with slots := slotWrite k p s.slots }

/-- The error record, written at the moment of the failure (60_exceptions R186, 10_state R32). -/
def State.recordError (s : State) : State :=
  { s with errBytesRead := s.bytesRead, errBytesParsed := s.bytesParsed, errPackets := s.packetsParsed }

/-- `finish(n, e)` (40_fill R120): the result pair, and the error record when `e ≠ NONE`. -/
def finish (n : Nat) (e : ErrKind) (s : State) : State :=
  let t := if e = .none then s else s.recordError
  { t with resCount := BitVec.ofNat 16 n, resErr := e, answer := .filled (BitVec.ofNat 16 n) e }

/-- WIN after the `e`-th RESET: 564 unspecified bytes (10_state R37; log 9). -/
def freeWin (e : Nat) : List Byte := (List.range 564).map (Config.freeWinByte e)

/-- FRM after the `e`-th RESET: 188 unspecified bytes (10_state R37; log 9). -/
def freeFrm (e : Nat) : List Byte := (List.range 188).map (Config.freeFrmByte e)

/-- Every state element at its reset value (43_host_access R167, 10_state R37): WIN, FRM and every slot unspecified; the
source, the parameters and what the host has issued untouched (70 R211). -/
def State.toReset (s : State) : State :=
  { s with
    pstate := .unsync, bytesRead := 0, bytesParsed := 0, packetsParsed := 0,
    win := freeWin (s.resets + 1), frm := freeFrm (s.resets + 1), slots := [],
    resCount := 0#16, resErr := .none, errBytesRead := 0, errBytesParsed := 0, errPackets := 0,
    answer := .done, resets := s.resets + 1 }

/-- What becomes of a request that is no instruction: an internal DECODE ends with its error kind and changes nothing
(42_decode R151, R152, R159 (h)); a reserved word and a pattern that does not match have no effect the spec gives. -/
def onReject (r : Reject) (s : State) : Outcome State :=
  match r with
  | .reservedCommand w => .refused (.reservedCommand w)
  | .bufferTooSmall => .next { s with answer := .decoded (.err .bufferTooSmall) }
  | .noMarkerPresent => .next { s with answer := .decoded (.err .noMarkerPresent) }
  | .patternMismatch => .refused .patternMismatch

/-- Takes one request in: runs the instruction it decodes to, or ends as it is rejected. -/
def runRequest (run : Instr → State → Outcome State) (r : Request) (s : State) : Outcome State :=
  match decode r with
  | .instr i => run i s
  | .reject why => onReject why s

/-- One step's work: the oldest request is taken from the pending ones and carried out whole (43_host_access R168); with
nothing pending the block is quiescent and the state stays (70 R223). -/
def takeRequest (run : Instr → State → Outcome State) (s : State) : Outcome State :=
  match s.pending with
  | [] => .next s
  | r :: rest => runRequest run r { s with pending := rest }

/-- `s` with one more request, ahead of all others. -/
def State.withRequest (r : Request) (s : State) : State := { s with pending := r :: s.pending }

end Sys2Proof.Machine
end

