-- ==== Sys2Proof/Machine/Synchronizer.lean ====
section
/-! DEFINITION. The meaning of SYNCHRONIZE, the stream synchronizer (41_synchronize). -/

namespace Sys2Proof.Machine

/-- The tail read of 41_synchronize R135: no read when `o = 0`. -/
def readTail (o : Nat) (s : State) : Outcome (List Byte × State) :=
  if o = 0 then .next ([], s) else srcReadFull o s

/-- The third frame: `WIN[o+376 .. 564) ++ tail` (41_synchronize R137). -/
def thirdFrame (win : List Byte) (o : Nat) (tail : List Byte) : List Byte := win.drop (o + 376) ++ tail

/-- The three decodes, FRM taking the third frame, and `PSTATE <- SYNC` (41_synchronize R137, R139). -/
def decodeThree (o : Nat) (tail : List Byte) (s : State) : Outcome (SyncResult × State) :=
  andThen (decodeBuf s.win o s) fun (r0, s0) =>
    match r0 with
    | .err e => .next (.err e, s0)
    | .ok p0 =>
      andThen (decodeBuf s0.win (o + 188) s0) fun (r1, s1) =>
        match r1 with
        | .err e => .next (.err e, s1)
        | .ok p1 =>
          let s2 := { s1 with frm := thirdFrame s1.win o tail }
          andThen (decodeBuf s2.frm 0 s2) fun (r2, s3) =>
            match r2 with
            | .err e => .next (.err e, s3)
            | .ok p2 => .next (.ok p0 p1 p2, { s3 with pstate := .sync })

/-- From a found offset on: the tail is read before anything is decoded, and a short tail is a truncation
(41_synchronize R135 to R137). -/
def syncFrom (o : Nat) (s : State) : Outcome (SyncResult × State) :=
  andThen (readTail o s) fun (tail, t) =>
    if tail.length < o then .next (.err .streamTruncated, t) else decodeThree o tail t

/-- The search over a full window (41_synchronize R133, R134). -/
def syncWindow (s : State) : Outcome (SyncResult × State) :=
  match findSync s.win with
  | none => .next (.err .noMarkerPresent, s)
  | some o => syncFrom o s

/-- `SYNCHRONIZE()` (41_synchronize R142). -/
def synchronize (s : State) : Outcome (SyncResult × State) :=
  andThen (srcReadFull 564 s) fun (bytes, t) =>
    if bytes.length = 0 then .next (.err .endOfStream, t)
    else if bytes.length < 564 then .next (.err .streamTruncated, t)
    else syncWindow { t with win := bytes }

/-- SYNCHRONIZE run alone (41_synchronize R142), "invoked only when unsynchronized" (R130; log 12, log 16). -/
def execSynchronize (s : State) : Outcome State :=
  if s.pstate = .unsync then andThen (synchronize s) fun (r, t) => .next { t with answer := .synced r }
  else .refused .synchronizeOutOfContract

end Sys2Proof.Machine
end

