-- ==== Sys2Proof/Machine/Fill.lean ====
section
/-! DEFINITION. The meaning of FILL, the batch fill operation (40_fill). -/

namespace Sys2Proof.Machine

/-- Step 2 (40_fill R114 to R117) with `left` slots still free and `n` packets produced in this call, `n + left = L`. -/
def fillLoop : (left n : Nat) → State → Outcome State
  | 0, n, s => .next (finish n .none s)
  | left + 1, n, s =>
    andThen (srcReadFull 188 s) fun (bytes, t) =>
      if bytes.length = 0 then
        if 1 ≤ n then .next (finish n .none t) else .next (finish 0 .endOfStream { t with pstate := .exhausted })
      else if bytes.length < 188 then .next (finish n .streamTruncated { t with pstate := .faulted })
      else
        andThen (decodeBuf bytes 0 { t with frm := bytes }) fun (r, u) =>
          match r with
          | .err e => .next (finish n e { u with pstate := .faulted })
          | .ok pkt => fillLoop left (n + 1) (u.setSlot n pkt)

/-- Step 1 and what follows it (40_fill R113): on success the three packets go to SLOT[0..2]. -/
def fillUnsync (cap : Nat) (s : State) : Outcome State :=
  andThen (synchronize s) fun (r, t) =>
    match r with
    | .err e => .next (finish 0 e t)
    | .ok p0 p1 p2 => fillLoop (cap - 3) 3 (((t.setSlot 0 p0).setSlot 1 p1).setSlot 2 p2)

/-- The dispatch on PSTATE of an accepted FILL (40_fill R112). -/
def fillAccepted (cap : Nat) (s : State) : Outcome State :=
  match s.pstate with
  | .exhausted => .next (finish 0 .endOfStream s)
  | .faulted => .next (finish 0 s.resErr s)
  | .sync => fillLoop cap 0 s
  | .unsync => fillUnsync cap s

/-- What FILL's capacity must satisfy (40_fill R111). -/
abbrev FillAllowed (cap : Nat) (s : State) : Prop :=
  1 ≤ cap ∧ cap ≤ s.cfg.slotsMax ∧ (s.pstate = .unsync → 3 ≤ cap)

/-- FILL L (40_fill R122). -/
def execFill (cap : BitVec 16) (s : State) : Outcome State :=
  if FillAllowed cap.toNat s then fillAccepted cap.toNat s else .refused .fillOutOfContract

end Sys2Proof.Machine
end

