-- ==== Sys2Proof/Machine/HostAccess.lean ====
section
/-! DEFINITION. The meanings of RD and RESET (43_host_access). -/

namespace Sys2Proof.Machine

/-- RD r (43_host_access R166): the register's value to the host, no TSSD state written. -/
def execRd (reg : Csr) (s : State) : Outcome State := .next { s with answer := .value (s.csr reg) }

/-- RESET (43_host_access R167). -/
def execReset (s : State) : Outcome State := .next s.toReset

end Sys2Proof.Machine
end

