-- ==== Sys2Proof/Machine/Packet.lean ====
section
/-! DEFINITION. The meaning of DECODE, the packet decoder (42_decode). -/

namespace Sys2Proof.Machine

/-- DECODE run alone on its operand frame (42_decode R157): the result goes back to the one that invoked it (log 12). -/
def execDecode (pkt : Packet) (s : State) : Outcome State :=
  andThen (decodeBuf (encodeFrame pkt) 0 s) fun (r, t) => .next { t with answer := .decoded r }

end Sys2Proof.Machine
end

