-- ==== Sys2Proof/Machine/Dispatch.lean ====
section
/-! DEFINITION. One arm per instruction. -/

namespace Sys2Proof.Machine

def exec (i : Instr) (s : State) : Host.Outcome State Fault Refusal :=
  match i with
  | .decode pkt => Sys2Proof.Machine.execDecode pkt s
  | .synchronize => Sys2Proof.Machine.execSynchronize s
  | .fill cap => Sys2Proof.Machine.execFill cap s
  | .rd reg => Sys2Proof.Machine.execRd reg s
  | .reset => Sys2Proof.Machine.execReset s

end Sys2Proof.Machine
end

