-- ==== Sys2Proof/Machine/Step.lean ====
section
/-! DEFINITION. One step: one whole operation, or an idle step. -/

namespace Sys2Proof.Machine

/-- One step (log 1): the oldest pending request, carried out whole. -/
def step (s : State) : Host.Outcome State Fault Refusal := takeRequest exec s

/-- `s` with the instruction of table bits `w` as the very next request (log 2); `s` where no row has `nbits` bits. -/
def State.withFetchWord (s : State) (nbits w : Nat) : State :=
  match tableRequest nbits w with
  | some r => s.withRequest r
  | none => s

end Sys2Proof.Machine
end

