-- ==== Sys2Proof/Safety.lean ====
section
/-! DEFINITION. The terms the statements use: the invariants the spec gives the machine, what a good frame is, and what a
FILL has delivered. -/

namespace Sys2Proof.Machine

/-- The source is exhausted: no byte left and none ever again (20_memory R54). -/
abbrev Source.Exhausted (src : Source) : Prop := src.bytes = [] ∧ src.after = .ended

/-- Only host commands are pending: the host "cannot issue SYNCHRONIZE or DECODE" (43_host_access R165). -/
abbrev State.HostOnly (s : State) : Prop := ∀ r ∈ s.pending, r.isCommand = true

/-- 10_state R26, and every counter fits in CTR_W bits (00_scope R6; the other two counters are no larger). -/
abbrev State.CountersOk (s : State) : Prop :=
  s.bytesParsed = 188 * s.packetsParsed ∧ s.bytesParsed ≤ s.bytesRead ∧ s.bytesRead < 2 ^ s.cfg.ctrW

/-- WIN and FRM have their sizes (10_state R28, R29). -/
abbrev State.BuffersOk (s : State) : Prop := s.win.length = 564 ∧ s.frm.length = 188

/-- The slot list is in its one form, lists only slots that exist with whole records (10_state R30, R38), and lists every
slot of the latest result (43_host_access R169). -/
abbrev State.SlotsOk (s : State) : Prop :=
  SlotsRising s.slots ∧ (∀ e ∈ s.slots, e.1 < s.cfg.slotsMax ∧ e.2.wf = true) ∧
    (∀ k, k < s.resCount.toNat → (slotLookup k s.slots).isSome = true) ∧ s.resCount.toNat ≤ s.cfg.slotsMax

/-- The error record: it holds the counters as of the latest failure (60_exceptions R186), which are still the counters
while that failure is the latest result (R191, R192). -/
abbrev State.RecordOk (s : State) : Prop :=
  s.errBytesParsed = 188 * s.errPackets ∧ s.errBytesRead ≤ s.bytesRead ∧ s.errBytesParsed ≤ s.bytesParsed ∧
    (s.resErr ≠ .none →
      s.errBytesRead = s.bytesRead ∧ s.errBytesParsed = s.bytesParsed ∧ s.errPackets = s.packetsParsed)

/-- What PSTATE and the latest result say of each other (60_exceptions R189 to R192, 70 R223), and no result is
BufferTooSmall (42_decode R158). -/
abbrev State.ControlOk (s : State) : Prop :=
  s.resErr ≠ .bufferTooSmall ∧
  (s.resErr = .streamTruncated ∨ s.resErr = .endOfStream → s.src.Exhausted) ∧
  (s.pstate = .unsync → s.resCount = 0#16 ∧ s.packetsParsed = 0) ∧
  (s.pstate = .sync → s.resErr = .none ∧ 1 ≤ s.resCount.toNat) ∧
  (s.pstate = .exhausted → s.resErr = .endOfStream ∧ s.resCount = 0#16) ∧
  (s.pstate = .faulted → s.resErr = .noMarkerPresent ∨ s.resErr = .streamTruncated)

/-- The invariant of the machine on host runs. -/
structure State.Inv (s : State) : Prop where
  cfg : s.cfg.Ok
  hostOnly : s.HostOnly
  counters : s.CountersOk
  buffers : s.BuffersOk
  slots : s.SlotsOk
  record : s.RecordOk
  control : s.ControlOk

/-- A frame DECODE accepts: 188 bytes, the first of them the marker (42_decode R150). -/
abbrev GoodFrame (f : List Byte) : Prop := f.length = 188 ∧ byteAt f 0 = 0x47#8

/-- Bytes of a window at which SYNCPAT stands at `o` (30_encoding R87). -/
abbrev MarkersAt (w : List Byte) (o : Nat) : Prop :=
  byteAt w o = 0x47#8 ∧ byteAt w (o + 188) = 0x47#8 ∧ byteAt w (o + 376) = 0x47#8

/-- FILL reaches its step 2 from `s` by taking `head` from the source, having produced `ps`, with `w` in WIN and `f` in FRM:
in SYNC at once, in UNSYNC by a synchronization at the lowest offset that holds SYNCPAT (40_fill R112, R113). -/
def State.EntersLoop (s : State) (head : List Byte) (ps : List Packet) (w f : List Byte) : Prop :=
  (s.pstate = .sync ∧ head = [] ∧ ps = [] ∧ w = s.win ∧ f = s.frm) ∨
  (s.pstate = .unsync ∧ ∃ o tail, head = w ++ tail ∧ w.length = 564 ∧ tail.length = o ∧ o ≤ 187 ∧ MarkersAt w o ∧
    (∀ c, c < o → ¬MarkersAt w c) ∧ f = w.drop (o + 376) ++ tail ∧
    ps = [packetAt w o, packetAt w (o + 188), packetAt f 0])

/-- The counters of `s` can take `bytes` more source bytes and `n` more packets (00_scope R6). -/
abbrev State.Room (s : State) (bytes n : Nat) : Prop :=
  s.bytesRead + bytes < 2 ^ s.cfg.ctrW ∧ s.bytesParsed + 188 * n < 2 ^ s.cfg.ctrW ∧
    s.packetsParsed + n < 2 ^ s.cfg.ctrW

/-- The next frame read of `s`, whole or short, or the packet it would deliver, would carry a counter above 2^CTR_W − 1
(00_scope R6; 40_fill R114). -/
def State.FrameOverflows (s : State) : Prop :=
  ∃ bytes, s.src.take 188 = some bytes ∧
    (2 ^ s.cfg.ctrW ≤ s.bytesRead + bytes.length ∨
      GoodFrame bytes ∧ (2 ^ s.cfg.ctrW ≤ s.packetsParsed + 1 ∨ 2 ^ s.cfg.ctrW ≤ s.bytesParsed + 188))

/-- A synchronization from `s` would carry a counter above 2^CTR_W − 1: by its window read or its tail read, whole or short,
or by the three packets (00_scope R6; 41_synchronize R131, R135, R137). -/
def State.SyncOverflows (s : State) : Prop :=
  ∃ w, s.src.take 564 = some w ∧
    (2 ^ s.cfg.ctrW ≤ s.bytesRead + w.length ∨
      ∃ o tail, w.length = 564 ∧ o ≤ 187 ∧ MarkersAt w o ∧ (∀ c, c < o → ¬MarkersAt w c) ∧
        (s.src.advance 564).take o = some tail ∧
        (2 ^ s.cfg.ctrW ≤ s.bytesRead + 564 + tail.length ∨
          tail.length = o ∧ (2 ^ s.cfg.ctrW ≤ s.packetsParsed + 3 ∨ 2 ^ s.cfg.ctrW ≤ s.bytesParsed + 564)))

/-- The three counters fit in CTR_W bits (00_scope R6, R10). -/
abbrev State.CountersFit (s : State) : Prop :=
  s.bytesRead < 2 ^ s.cfg.ctrW ∧ s.bytesParsed < 2 ^ s.cfg.ctrW ∧ s.packetsParsed < 2 ^ s.cfg.ctrW

/-- From `s` to `t` the packets `ps` went to SLOT[0], SLOT[1], ... in order and were counted once each, and what no packet
delivery touches is as it was: the other slots, the parameters, what is pending, the model's RESET counter. -/
structure Delivered (s t : State) (ps : List Packet) : Prop where
  packets : t.packetsParsed = s.packetsParsed + ps.length
  parsed : t.bytesParsed = s.bytesParsed + 188 * ps.length
  written : ∀ k, k < ps.length → slotLookup k t.slots = ps[k]?
  kept : ∀ k, ps.length ≤ k → slotLookup k t.slots = slotLookup k s.slots
  cfg : t.cfg = s.cfg
  pending : t.pending = s.pending
  resets : t.resets = s.resets

/-- The three ERR registers of `t` hold the counters of `t` (60_exceptions R186). -/
abbrev State.RecordsNow (t : State) : Prop :=
  t.errBytesRead = t.bytesRead ∧ t.errBytesParsed = t.bytesParsed ∧ t.errPackets = t.packetsParsed

/-- The three ERR registers of `t` are those of `s` (40_fill R120). -/
abbrev SameRecord (s t : State) : Prop :=
  t.errBytesRead = s.errBytesRead ∧ t.errBytesParsed = s.errBytesParsed ∧ t.errPackets = s.errPackets

/-- FILL's pair stands in RES_COUNT and RES_ERR and was given to the host (40_fill R120). -/
abbrev State.Finished (t : State) (n : Nat) (e : ErrKind) : Prop :=
  t.resCount.toNat = n ∧ t.resErr = e ∧ t.answer = .filled t.resCount e

/-- What the host learns of an operation without looking at any stream byte: how it ended and, after a next state, the
control state, the result pair and the counters. -/
def controlView (o : Outcome State) : Outcome (PState × BitVec 16 × ErrKind × Nat × Nat × Nat) :=
  andThen o fun t => .next (t.pstate, t.resCount, t.resErr, t.bytesRead, t.bytesParsed, t.packetsParsed)

end Sys2Proof.Machine
end

