-- ==== Sys2Proof/Certificates/Slice0/Obligations.lean ====
section
/-! DEFINITION. The statements for the provers, from the spec's numbered rules. -/

open Sys2Proof Sys2Proof.Machine

/-! ## Encodings and fetching -/

/-- Decoding what a well-formed instruction encodes to gives it back, every operand at every value (30_encoding R81 to R87,
R90, R91). -/
def Obligations.DecodeOfEncode : Prop :=
  ∀ i : Instr, i.wf = true → decode (encode i) = .instr i

/-- An accepted request is the encoding of what it was read as: no bit of a command word, a frame of 188 bytes or a pattern
is ignored (30_encoding R82, R90, R91). -/
def Obligations.EncodeOfDecode : Prop :=
  ∀ (r : Request) (i : Instr), (∀ bytes, r = .frame bytes → bytes.length = 188) → decode r = .instr i →
    encode i = r ∧ i.wf = true

/-- A few words written out from the spec (95_test_vectors V-H, Header encodings). -/
def Obligations.SpecWordsDecode : Prop :=
  decode (.command 0x10000003#32) = .instr (.fill 3#16) ∧
  decode (.command 0x20000008#32) = .instr (.rd .cap) ∧
  decode (.command 0xF0000000#32) = .instr .reset ∧
  decode (.pattern 0x47#8 0x47#8 0x47#8) = .instr .synchronize ∧
  ∀ payload : List Byte, payload.length = 185 →
    decode (.frame (0x47#8 :: 0x9F#8 :: 0xFF#8 :: payload)) = .instr (.decode ⟨true, false, false, 0x1FFF#13, payload⟩) ∧
    decode (.frame (0x47#8 :: 0x41#8 :: 0x23#8 :: payload)) = .instr (.decode ⟨false, true, false, 0x0123#13, payload⟩)

/-- 30_encoding R91 and the encodings of R92, by their matches and masks: which command words there are, and that every
other word is reserved. -/
def Obligations.CommandWordsByMask : Prop :=
  ∀ w : BitVec 32,
    (w &&& 0xFFFF0000#32 = 0x10000000#32 → decode (.command w) = .instr (.fill (w.setWidth 16))) ∧
    (∀ r : Csr, w &&& 0xFFFF0000#32 = 0x20000000#32 → w.setWidth 16 = csrNumber r → decode (.command w) = .instr (.rd r)) ∧
    (w = 0xF0000000#32 → decode (.command w) = .instr .reset) ∧
    (w &&& 0xFFFF0000#32 ≠ 0x10000000#32 → ¬(w &&& 0xFFFF0000#32 = 0x20000000#32 ∧ (w.setWidth 16).toNat ≤ 8) → w ≠ 0xF0000000#32 →
      decode (.command w) = .reject (.reservedCommand w))

/-- 30_encoding R92: the model refuses every reserved command word, and FILL outside its contract. -/
def Obligations.ReservedAndOutOfContractRefused : Prop :=
  (∀ (s : State) (w : BitVec 32) (rest : List Request), s.pending = .command w :: rest →
    (w.extractLsb' 28 4 = 0x0#4 ∨ (0x3#4 ≤ w.extractLsb' 28 4 ∧ w.extractLsb' 28 4 ≤ 0xE#4) ∨ w.extractLsb' 16 12 ≠ 0#12 ∨
      (w.extractLsb' 28 4 = 0xF#4 ∧ w.extractLsb' 0 16 ≠ 0#16) ∨ (w.extractLsb' 28 4 = 0x2#4 ∧ 8#16 < w.extractLsb' 0 16)) →
    step s = .refused (.reservedCommand w)) ∧
  (∀ (s : State) (cap : BitVec 16), (cap = 0#16 ∨ s.cfg.slotsMax < cap.toNat ∨ (cap < 3#16 ∧ s.pstate = .unsync)) →
    exec (.fill cap) s = .refused .fillOutOfContract)

/-- A step carries out the oldest pending request: exec of the instruction it decodes to, on the state with the request
taken; with nothing pending the state stays (43_host_access R168, 70 R223; the list of pending requests is the model's,
log 1). -/
def Obligations.StepRunsDecodedInstruction : Prop :=
  (∀ (s : State) (r : Request) (rest : List Request) (i : Instr), s.pending = r :: rest → decode r = .instr i →
    step s = exec i { s with pending := rest }) ∧
  (∀ s : State, s.pending = [] → step s = .next s)

/-- 30_encoding R88: of frames the one illegal kind is that whose byte 0 is not 0x47, and DECODE of it fails with
NoMarkerPresent and changes nothing (42_decode R159 (h)). -/
def Obligations.OnlyMissingMarkerIsIllegal : Prop :=
  ∀ bytes : List Byte, bytes.length = 188 →
    ((∃ i, decode (.frame bytes) = .instr i) ↔ byteAt bytes 0 = 0x47#8) ∧
    (byteAt bytes 0 ≠ 0x47#8 → ∀ (s : State) (rest : List Request), s.pending = .frame bytes :: rest →
      step s = .next { s with pending := rest, answer := .decoded (.err .noMarkerPresent) })

/-! ## DECODE -/

/-- 42_decode R151. -/
def Obligations.DecodeShortBufferTooSmall : Prop :=
  ∀ (buf : List Byte) (off : Nat) (s : State), buf.length < off + 188 →
    decodeBuf buf off s = .next (.err .bufferTooSmall, s)

/-- 42_decode R152. -/
def Obligations.DecodeWithoutMarkerFails : Prop :=
  ∀ (buf : List Byte) (off : Nat) (s : State), off + 188 ≤ buf.length → byteAt buf off ≠ 0x47#8 →
    decodeBuf buf off s = .next (.err .noMarkerPresent, s)

/-- 30_encoding R83 to R85: the fields of the record, in the arithmetic of the rules; 42_decode R156: the counters. -/
def Obligations.DecodeExtractsFields : Prop :=
  ∀ (buf : List Byte) (off : Nat) (s : State), off + 188 ≤ buf.length → byteAt buf off = 0x47#8 → s.Room 0 1 →
    ∃ p : Packet, decodeBuf buf off s =
        .next (.ok p, { s with packetsParsed := s.packetsParsed + 1, bytesParsed := s.bytesParsed + 188 }) ∧
      p.flag0 = decide (byteAt buf (off + 1) &&& 0x80#8 ≠ 0#8) ∧
      p.flag1 = decide (byteAt buf (off + 1) &&& 0x40#8 ≠ 0#8) ∧
      p.flag2 = decide (byteAt buf (off + 1) &&& 0x20#8 ≠ 0#8) ∧
      p.pid.toNat = 256 * ((byteAt buf (off + 1)).toNat % 32) + (byteAt buf (off + 2)).toNat ∧
      p.payload.length = 185 ∧ ∀ j, j < 185 → byteAt p.payload j = byteAt buf (off + 3 + j)

/-- DECODE run alone on a legal frame completes: the record goes back to its caller, the two counters grow, nothing else
changes (42_decode R157; run alone by the model's choice, log 12). -/
def Obligations.ExecDecodeCompletes : Prop :=
  ∀ (pkt : Packet) (s : State), pkt.wf = true → s.Room 0 1 →
    exec (.decode pkt) s = .next { s with
      packetsParsed := s.packetsParsed + 1, bytesParsed := s.bytesParsed + 188, answer := .decoded (.ok pkt) }

/-! ## SYNCHRONIZE -/

/-- 41_synchronize R133: the search finds the lowest offset in 0..187 with three markers, or none when there is none. -/
def Obligations.SearchTakesLowestOffset : Prop :=
  ∀ w : List Byte,
    (∀ o, findSync w = some o ↔ o ≤ 187 ∧ MarkersAt w o ∧ ∀ c, c < o → ¬MarkersAt w c) ∧
    (findSync w = none ↔ ∀ o, o ≤ 187 → ¬MarkersAt w o)

/-- 41_synchronize R135, R137 to R139: a successful SYNCHRONIZE, with everything it writes. -/
def Obligations.SynchronizeSucceeds : Prop :=
  ∀ (s : State) (w tail rest : List Byte) (after : SourceEnd) (o : Nat),
    s.pstate = .unsync → s.src = ⟨w ++ tail ++ rest, after⟩ → w.length = 564 → tail.length = o → o ≤ 187 →
    MarkersAt w o → (∀ c, c < o → ¬MarkersAt w c) → s.Room (564 + o) 3 →
    exec .synchronize s = .next { s with
      pstate := .sync, bytesRead := s.bytesRead + 564 + o, bytesParsed := s.bytesParsed + 564,
      packetsParsed := s.packetsParsed + 3, win := w, frm := w.drop (o + 376) ++ tail, src := ⟨rest, after⟩,
      answer := .synced (.ok (packetAt w o) (packetAt w (o + 188)) (packetAt (w.drop (o + 376) ++ tail) 0)) }

/-- 41_synchronize R134: no candidate in a full window. -/
def Obligations.SynchronizeWithoutCandidate : Prop :=
  ∀ (s : State) (w rest : List Byte) (after : SourceEnd),
    s.pstate = .unsync → s.src = ⟨w ++ rest, after⟩ → w.length = 564 → (∀ o, o ≤ 187 → ¬MarkersAt w o) → s.Room 564 0 →
    exec .synchronize s = .next { s with
      bytesRead := s.bytesRead + 564, win := w, src := ⟨rest, after⟩, answer := .synced (.err .noMarkerPresent) }

/-- 41_synchronize R132: a short window, none of its bytes searched or kept. -/
def Obligations.SynchronizeShortWindow : Prop :=
  ∀ (s : State) (bytes : List Byte),
    s.pstate = .unsync → s.src = ⟨bytes, .ended⟩ → bytes.length < 564 → s.Room bytes.length 0 →
    exec .synchronize s = .next { s with
      bytesRead := s.bytesRead + bytes.length, src := ⟨[], .ended⟩,
      answer := .synced (.err (if bytes.length = 0 then .endOfStream else .streamTruncated)) }

/-- 41_synchronize R136: a short tail, also an empty one; nothing is decoded. -/
def Obligations.SynchronizeShortTail : Prop :=
  ∀ (s : State) (w part : List Byte) (o : Nat),
    s.pstate = .unsync → s.src = ⟨w ++ part, .ended⟩ → w.length = 564 → part.length < o → o ≤ 187 →
    MarkersAt w o → (∀ c, c < o → ¬MarkersAt w c) → s.Room (564 + part.length) 0 →
    exec .synchronize s = .next { s with
      bytesRead := s.bytesRead + 564 + part.length, win := w, src := ⟨[], .ended⟩,
      answer := .synced (.err .streamTruncated) }

/-- SYNCHRONIZE run alone is refused outside UNSYNC (the model's reading of 41_synchronize R130, log 16). -/
def Obligations.SynchronizeOnlyWhenUnsync : Prop :=
  ∀ s : State, s.pstate ≠ .unsync → exec .synchronize s = .refused .synchronizeOutOfContract

/-! ## FILL -/

/-- 40_fill R111, the accepted side: a FILL within its contract is never refused as out of contract. -/
def Obligations.FillInContractIsAccepted : Prop :=
  ∀ (s : State) (cap : BitVec 16), FillAllowed cap.toNat s → exec (.fill cap) s ≠ .refused .fillOutOfContract

/-- 40_fill R112, EXHAUSTED and FAULTED: the answer is given again and nothing is read, decoded or written to a slot. -/
def Obligations.FillInTerminalStates : Prop :=
  ∀ (s : State) (cap : BitVec 16), 1 ≤ cap.toNat → cap.toNat ≤ s.cfg.slotsMax →
    (s.pstate = .exhausted → exec (.fill cap) s = .next { s with
      resCount := 0#16, resErr := .endOfStream, answer := .filled 0#16 .endOfStream,
      errBytesRead := s.bytesRead, errBytesParsed := s.bytesParsed, errPackets := s.packetsParsed }) ∧
    (s.pstate = .faulted → s.resErr ≠ .none → exec (.fill cap) s = .next { s with
      resCount := 0#16, answer := .filled 0#16 s.resErr,
      errBytesRead := s.bytesRead, errBytesParsed := s.bytesParsed, errPackets := s.packetsParsed }) ∧
    (s.pstate = .faulted → s.resErr = .none → exec (.fill cap) s = .next { s with
      resCount := 0#16, answer := .filled 0#16 .none })

/-- 40_fill R114: with a good frame for every slot step 2 leaves free, FILL stops when the slots are full; straight after a
synchronization with L = 3 it reads no frame. -/
def Obligations.FillFillsAllSlots : Prop :=
  ∀ (s : State) (cap : BitVec 16) (head : List Byte) (ps : List Packet) (w f : List Byte) (fs : List (List Byte))
    (rest : List Byte) (after : SourceEnd),
    s.EntersLoop head ps w f → 1 ≤ cap.toNat → cap.toNat ≤ s.cfg.slotsMax → ps.length + fs.length = cap.toNat →
    (∀ f ∈ fs, GoodFrame f) → s.src = ⟨head ++ (fs.flatten ++ rest), after⟩ →
    s.Room (head.length + 188 * fs.length) (ps.length + fs.length) →
    ∃ t, exec (.fill cap) s = .next t ∧ Delivered s t (ps ++ fs.map (packetAt · 0)) ∧ t.Finished cap.toNat .none ∧
      t.pstate = .sync ∧ t.bytesRead = s.bytesRead + head.length + 188 * fs.length ∧ t.src = ⟨rest, after⟩ ∧
      t.win = w ∧ t.frm = fs.getLastD f ∧ SameRecord s t

/-- 40_fill R115: the source ends with the last good frame before the slots are full. -/
def Obligations.FillStopsAtCleanEnd : Prop :=
  ∀ (s : State) (cap : BitVec 16) (head : List Byte) (ps : List Packet) (w f : List Byte) (fs : List (List Byte)),
    s.EntersLoop head ps w f → cap.toNat ≤ s.cfg.slotsMax → ps.length + fs.length < cap.toNat →
    (∀ f ∈ fs, GoodFrame f) → s.src = ⟨head ++ fs.flatten, .ended⟩ →
    s.Room (head.length + 188 * fs.length) (ps.length + fs.length) →
    ∃ t, exec (.fill cap) s = .next t ∧ Delivered s t (ps ++ fs.map (packetAt · 0)) ∧
      t.bytesRead = s.bytesRead + head.length + 188 * fs.length ∧ t.src = ⟨[], .ended⟩ ∧ t.win = w ∧
      t.frm = fs.getLastD f ∧
      (1 ≤ ps.length + fs.length → t.Finished (ps.length + fs.length) .none ∧ t.pstate = .sync ∧ SameRecord s t) ∧
      (ps.length + fs.length = 0 → t.Finished 0 .endOfStream ∧ t.pstate = .exhausted ∧ t.RecordsNow)

/-- 40_fill R116: the source ends inside a frame; what its first bytes are does not matter (60_exceptions R188). -/
def Obligations.FillTruncatedFaults : Prop :=
  ∀ (s : State) (cap : BitVec 16) (head : List Byte) (ps : List Packet) (w f : List Byte) (fs : List (List Byte))
    (part : List Byte),
    s.EntersLoop head ps w f → cap.toNat ≤ s.cfg.slotsMax → ps.length + fs.length < cap.toNat →
    (∀ f ∈ fs, GoodFrame f) → 1 ≤ part.length → part.length < 188 → s.src = ⟨head ++ (fs.flatten ++ part), .ended⟩ →
    s.Room (head.length + 188 * fs.length + part.length) (ps.length + fs.length) →
    ∃ t, exec (.fill cap) s = .next t ∧ Delivered s t (ps ++ fs.map (packetAt · 0)) ∧
      t.Finished (ps.length + fs.length) .streamTruncated ∧ t.pstate = .faulted ∧
      t.bytesRead = s.bytesRead + head.length + 188 * fs.length + part.length ∧ t.src = ⟨[], .ended⟩ ∧
      t.win = w ∧ t.frm = fs.getLastD f ∧ t.RecordsNow

/-- 40_fill R117: a frame without its marker, whatever follows it. -/
def Obligations.FillBadMarkerFaults : Prop :=
  ∀ (s : State) (cap : BitVec 16) (head : List Byte) (ps : List Packet) (w f : List Byte) (fs : List (List Byte))
    (bad rest : List Byte) (after : SourceEnd),
    s.EntersLoop head ps w f → cap.toNat ≤ s.cfg.slotsMax → ps.length + fs.length < cap.toNat →
    (∀ f ∈ fs, GoodFrame f) → bad.length = 188 → byteAt bad 0 ≠ 0x47#8 →
    s.src = ⟨head ++ (fs.flatten ++ (bad ++ rest)), after⟩ →
    s.Room (head.length + 188 * fs.length + 188) (ps.length + fs.length) →
    ∃ t, exec (.fill cap) s = .next t ∧ Delivered s t (ps ++ fs.map (packetAt · 0)) ∧
      t.Finished (ps.length + fs.length) .noMarkerPresent ∧ t.pstate = .faulted ∧
      t.bytesRead = s.bytesRead + head.length + 188 * fs.length + 188 ∧ t.src = ⟨rest, after⟩ ∧
      t.win = w ∧ t.frm = bad ∧ t.RecordsNow

/-- 40_fill R113, the failing side: FILL ends with the synchronizer's kind and count 0, stays UNSYNC, and writes no slot;
only bytesRead has moved among the counters. -/
def Obligations.FillSyncFailureStaysUnsync : Prop :=
  ∀ (s u : State) (cap : BitVec 16) (e : ErrKind),
    s.pstate = .unsync → 3 ≤ cap.toNat → cap.toNat ≤ s.cfg.slotsMax →
    exec .synchronize s = .next u → u.answer = .synced (.err e) →
    ∃ t, exec (.fill cap) s = .next t ∧ t.Finished 0 e ∧ t.pstate = .unsync ∧ t.RecordsNow ∧
      (e = .noMarkerPresent ∨ e = .streamTruncated ∨ e = .endOfStream) ∧ Delivered s t [] ∧
      t.bytesRead = u.bytesRead ∧ t.src = u.src ∧ t.win = u.win ∧ t.frm = s.frm

/-- 60_exceptions R189: the transitions of PSTATE under each host command, with FILL's results; no other exists. -/
def Obligations.TransitionTable : Prop :=
  (∀ s t : State, exec .reset s = .next t → t.pstate = .unsync) ∧
  (∀ (s t : State) (r : Csr), exec (.rd r) s = .next t → t.pstate = s.pstate) ∧
  ∀ (s t : State) (cap : BitVec 16), exec (.fill cap) s = .next t →
    (s.pstate = .unsync ∧ t.pstate = .unsync ∧ t.resCount = 0#16 ∧
      (t.resErr = .noMarkerPresent ∨ t.resErr = .streamTruncated ∨ t.resErr = .endOfStream)) ∨
    (s.pstate = .unsync ∧ t.pstate = .sync ∧ 3#16 ≤ t.resCount ∧ t.resCount ≤ cap ∧ t.resErr = .none) ∨
    (s.pstate = .unsync ∧ t.pstate = .faulted ∧ 3#16 ≤ t.resCount ∧ t.resCount < cap ∧
      (t.resErr = .noMarkerPresent ∨ t.resErr = .streamTruncated)) ∨
    (s.pstate = .sync ∧ t.pstate = .sync ∧ 1#16 ≤ t.resCount ∧ t.resCount ≤ cap ∧ t.resErr = .none) ∨
    (s.pstate = .sync ∧ t.pstate = .exhausted ∧ t.resCount = 0#16 ∧ t.resErr = .endOfStream) ∨
    (s.pstate = .sync ∧ t.pstate = .faulted ∧ t.resCount < cap ∧
      (t.resErr = .noMarkerPresent ∨ t.resErr = .streamTruncated)) ∨
    (s.pstate = .exhausted ∧ t.pstate = .exhausted ∧ t.resCount = 0#16 ∧ t.resErr = .endOfStream) ∨
    (s.pstate = .faulted ∧ t.pstate = .faulted ∧ t.resCount = 0#16 ∧ t.resErr = s.resErr)

/-- 42_decode R158: BufferTooSmall never comes out of a FILL, unless it was there to be reported again. -/
def Obligations.FillNeverBufferTooSmall : Prop :=
  ∀ (s t : State) (cap : BitVec 16), s.resErr ≠ .bufferTooSmall → exec (.fill cap) s = .next t →
    t.resErr ≠ .bufferTooSmall

/-- 40_fill R118, 20_memory R53: packetsParsed grows by the count, bytesParsed by 188 times the count, and bytesRead by
exactly the number of bytes taken from the source, which the source had. -/
def Obligations.FillCountsBytesAndPackets : Prop :=
  ∀ (s t : State) (cap : BitVec 16), exec (.fill cap) s = .next t →
    t.packetsParsed = s.packetsParsed + t.resCount.toNat ∧ t.bytesParsed = s.bytesParsed + 188 * t.resCount.toNat ∧
    ∃ m, t.bytesRead = s.bytesRead + m ∧ t.src = s.src.advance m ∧
      (m ≤ s.src.bytes.length ∨ ∃ next, s.src.after = .endless next)

/-- 40_fill R120, 60_exceptions R186: the result pair and the error record at the end of every FILL. -/
def Obligations.FillRecordsFailure : Prop :=
  ∀ (s t : State) (cap : BitVec 16), exec (.fill cap) s = .next t →
    t.answer = .filled t.resCount t.resErr ∧ (t.resErr ≠ .none → t.RecordsNow) ∧ (t.resErr = .none → SameRecord s t)

/-- FILL's frame: it writes slots 0..count−1 and no other (10_state R30), WIN only from UNSYNC (R28), nothing outside TSSD
but the source's cursor and its answer; from EXHAUSTED and FAULTED not the buffers or the source either (40_fill R112). -/
def Obligations.FillFrame : Prop :=
  ∀ (s t : State) (cap : BitVec 16), exec (.fill cap) s = .next t →
    (∀ k, t.resCount.toNat ≤ k → t.readSlot k = s.readSlot k) ∧
    t.cfg = s.cfg ∧ t.pending = s.pending ∧ t.resets = s.resets ∧
    (s.pstate ≠ .unsync → t.win = s.win) ∧
    (s.pstate = .exhausted ∨ s.pstate = .faulted → t.frm = s.frm ∧ t.src = s.src ∧ t.slots = s.slots)

/-- 20_memory R55: a read that can neither be served nor end leaves the FILL without a step, be it the window read, the tail
read or a frame read. -/
def Obligations.FillBlocksOnSilentSource : Prop :=
  ∀ (s : State) (cap : BitVec 16), FillAllowed cap.toNat s →
    (∀ part : List Byte, s.pstate = .unsync → part.length < 564 → s.src = ⟨part, .silent⟩ →
      exec (.fill cap) s = .fault .sourceBlocked) ∧
    (∀ (w part : List Byte) (o : Nat), s.pstate = .unsync → w.length = 564 → part.length < o → o ≤ 187 → MarkersAt w o →
      (∀ c, c < o → ¬MarkersAt w c) → s.src = ⟨w ++ part, .silent⟩ → s.Room 564 0 →
      exec (.fill cap) s = .fault .sourceBlocked) ∧
    (∀ (head : List Byte) (ps : List Packet) (w f : List Byte) (fs : List (List Byte)) (part : List Byte),
      s.EntersLoop head ps w f → ps.length + fs.length < cap.toNat → (∀ f ∈ fs, GoodFrame f) → part.length < 188 →
      s.src = ⟨head ++ (fs.flatten ++ part), .silent⟩ → s.Room (head.length + 188 * fs.length) (ps.length + fs.length) →
      exec (.fill cap) s = .fault .sourceBlocked)

/-- 70 R222: "an operation returns if each of its source reads returns". On a source that is not silent, FILL in its
contract and SYNCHRONIZE in UNSYNC end in a next state, whatever the bytes are (the counters having room, 00_scope R6). -/
def Obligations.OperationsReturnWhenSourceAnswers : Prop :=
  (∀ (s : State) (cap : BitVec 16), FillAllowed cap.toNat s → s.src.after ≠ .silent →
    s.Room (751 + 188 * cap.toNat) (3 + cap.toNat) → ∃ t, exec (.fill cap) s = .next t) ∧
  (∀ s : State, s.pstate = .unsync → s.src.after ≠ .silent → s.Room 751 3 → ∃ t, exec .synchronize s = .next t)

/-- 00_scope R6 (a): an operation that would carry a counter above 2^CTR_W − 1 is refused. SYNCHRONIZE, and FILL from UNSYNC,
by the window read, the tail read or the three packets; FILL in SYNC by its first frame; every FILL by a later frame, that is,
one that comes where a shorter FILL has filled its slots; DECODE by its packet. The whole operation is refused (log 7);
SYNCHRONIZE and DECODE are run alone by the model's choice (log 12). -/
def Obligations.CounterOverflowRefused : Prop :=
  (∀ s : State, s.pstate = .unsync → s.SyncOverflows →
    exec .synchronize s = .refused .counterOverflow ∧
    ∀ cap : BitVec 16, FillAllowed cap.toNat s → exec (.fill cap) s = .refused .counterOverflow) ∧
  (∀ (s : State) (cap : BitVec 16), s.pstate = .sync → FillAllowed cap.toNat s → s.FrameOverflows →
    exec (.fill cap) s = .refused .counterOverflow) ∧
  (∀ (s t : State) (a c : BitVec 16), exec (.fill a) s = .next t → t.resErr = .none → t.resCount = a →
    a.toNat < c.toNat → c.toNat ≤ s.cfg.slotsMax → t.FrameOverflows → exec (.fill c) s = .refused .counterOverflow) ∧
  (∀ (s : State) (pkt : Packet), pkt.wf = true →
    (2 ^ s.cfg.ctrW ≤ s.packetsParsed + 1 ∨ 2 ^ s.cfg.ctrW ≤ s.bytesParsed + 188) →
    exec (.decode pkt) s = .refused .counterOverflow)

/-- 40_fill R124 (c): cutting a batch in two loses nothing, whether the first FILL starts in SYNC or synchronizes first. What
FILL a and then FILL b deliver and consume, FILL (a + b) delivers and consumes at once; where the second batch finds the
source dry and moves to EXHAUSTED, the one batch stays in SYNC with what it has (40_fill R115). -/
def Obligations.SplitBatchesLoseNothing : Prop :=
  ∀ (s t u : State) (a b c : BitVec 16), c.toNat = a.toNat + b.toNat → c.toNat ≤ s.cfg.slotsMax →
    exec (.fill a) s = .next t → t.resErr = .none → t.resCount = a → exec (.fill b) t = .next u →
    ∃ v, exec (.fill c) s = .next v ∧ v.src = u.src ∧ v.bytesRead = u.bytesRead ∧ v.bytesParsed = u.bytesParsed ∧
      v.packetsParsed = u.packetsParsed ∧ v.resCount.toNat = a.toNat + u.resCount.toNat ∧
      (u.pstate ≠ .exhausted → v.pstate = u.pstate ∧ v.resErr = u.resErr) ∧
      (u.pstate = .exhausted → v.pstate = .sync ∧ v.resErr = .none) ∧
      (∀ k, k < a.toNat → slotLookup k v.slots = slotLookup k t.slots) ∧
      (∀ k, k < u.resCount.toNat → slotLookup (a.toNat + k) v.slots = slotLookup k u.slots)

/-- 30_encoding R81, R89: in SYNC only the marker bytes, every 188th of the stream, bear on what a FILL reports; flags,
identifiers and payloads are copied and never looked at. -/
def Obligations.OnlyMarkersSteerFill : Prop :=
  ∀ (s : State) (cap : BitVec 16) (bytes : List Byte), s.pstate = .sync → bytes.length = s.src.bytes.length →
    (∀ i, byteAt bytes (188 * i) = byteAt s.src.bytes (188 * i)) →
    controlView (exec (.fill cap) { s with src := ⟨bytes, s.src.after⟩ }) = controlView (exec (.fill cap) s)

/-! ## RD and RESET -/

/-- 30_encoding R93, 43_host_access R166: what RD answers for each register; it writes no state; above 8 the word is
reserved. -/
def Obligations.RdAnswersRegister : Prop :=
  (∀ (s : State) (r : Csr), exec (.rd r) s = .next { s with answer := .value (match r with
    | .status => (match s.pstate with | .unsync => 0 | .sync => 5 | .exhausted => 6 | .faulted => 7)
    | .result => s.resCount.toNat + 65536 * (match s.resErr with
        | .none => 0 | .bufferTooSmall => 1 | .noMarkerPresent => 2 | .streamTruncated => 3 | .endOfStream => 4)
    | .bytesRead => s.bytesRead
    | .bytesParsed => s.bytesParsed
    | .packetsParsed => s.packetsParsed
    | .errBytesRead => s.errBytesRead
    | .errBytesParsed => s.errBytesParsed
    | .errPackets => s.errPackets
    | .cap => s.cfg.slotsMax) }) ∧
  (∀ w : BitVec 32, w.extractLsb' 28 4 = 0x2#4 → 8#16 < w.extractLsb' 0 16 →
    decode (.command w) = .reject (.reservedCommand w))

/-- In every state of a host run each register fits in the CTR_W bits RD returns (30_encoding R93; CTR_W ≥ 19 is the
model's reading, log 6). -/
def Obligations.RegistersFitCounterWidth : Prop :=
  ∀ (s : State) (r : Csr), s.Inv → s.csr r < 2 ^ s.cfg.ctrW

/-- 43_host_access R167, 70 R211: RESET. Of WIN, FRM and the slots nothing is stated but their sizes. -/
def Obligations.ResetRestoresResetValues : Prop :=
  ∀ s : State, ∃ t, exec .reset s = .next t ∧
    t.pstate = .unsync ∧ t.bytesRead = 0 ∧ t.bytesParsed = 0 ∧ t.packetsParsed = 0 ∧ t.resCount = 0#16 ∧ t.resErr = .none ∧
    t.errBytesRead = 0 ∧ t.errBytesParsed = 0 ∧ t.errPackets = 0 ∧ t.win.length = 564 ∧ t.frm.length = 188 ∧
    t.src = s.src ∧ t.cfg = s.cfg ∧ t.pending = s.pending

/-- 10_state R37: the values the spec gives for reset. -/
def Obligations.ResetStateValues : Prop :=
  State.reset.pstate = .unsync ∧ State.reset.synchronized = false ∧ State.reset.bytesRead = 0 ∧
  State.reset.bytesParsed = 0 ∧ State.reset.packetsParsed = 0 ∧ State.reset.resCount = 0#16 ∧ State.reset.resErr = .none ∧
  State.reset.errBytesRead = 0 ∧ State.reset.errBytesParsed = 0 ∧ State.reset.errPackets = 0

/-! ## The whole machine -/

/-- 60_exceptions R193: the only way out of EXHAUSTED and FAULTED is the RESET command. -/
def Obligations.OnlyResetLeavesTerminalStates : Prop :=
  ∀ s t : State, (s.pstate = .exhausted ∨ s.pstate = .faulted) → step s = .next t → t.pstate ≠ s.pstate →
    ∃ rest, s.pending = .command 0xF0000000#32 :: rest

/-- 10_state R27 and R34: no step but RESET lowers a counter or clears `synchronized`, and a host command other than RESET
changes no counter in EXHAUSTED and FAULTED. -/
def Obligations.OnlyResetLowersCounters : Prop :=
  ∀ s t : State, (∀ rest, s.pending ≠ .command 0xF0000000#32 :: rest) → step s = .next t →
    (s.bytesRead ≤ t.bytesRead ∧ s.bytesParsed ≤ t.bytesParsed ∧ s.packetsParsed ≤ t.packetsParsed) ∧
    (s.synchronized = true → t.synchronized = true) ∧
    (s.HostOnly → s.pstate = .exhausted ∨ s.pstate = .faulted →
      t.bytesRead = s.bytesRead ∧ t.bytesParsed = s.bytesParsed ∧ t.packetsParsed = s.packetsParsed)

/-- 10_state R26: `bytesParsed = packetsParsed * 188` is kept by every step whatsoever, and `bytesRead ≥ bytesParsed`
by every step a host command makes. -/
def Obligations.ParsedBytesMatchPackets : Prop :=
  ∀ s t : State, s.bytesParsed = s.packetsParsed * 188 → step s = .next t →
    t.bytesParsed = t.packetsParsed * 188 ∧ (s.HostOnly → s.bytesParsed ≤ s.bytesRead → t.bytesParsed ≤ t.bytesRead)

/-- The invariant holds at reset (what it says of WIN, FRM, the slots, the parameters and the source there rests on the
model's choices, log 5, log 8, log 10, log 11). -/
def Obligations.InvariantAtReset : Prop := State.reset.Inv

/-- Every step keeps the invariant: R26, the buffers' sizes, the slot file's form, the error record (R186, R191, R192), and
what PSTATE and the latest result say of each other (R189, R223). -/
def Obligations.InvariantKeptByStep : Prop :=
  ∀ s t : State, s.Inv → step s = .next t → t.Inv

/-- 20_memory R62: a slot write replaces one slot whole and leaves every other, and keeps the slot file's form. -/
def Obligations.SlotReadAfterWrite : Prop :=
  ∀ (s : State) (k j : Nat) (p : Packet), k < s.cfg.slotsMax →
    (s.setSlot k p).readSlot k = .next p ∧ (j ≠ k → (s.setSlot k p).readSlot j = s.readSlot j) ∧
    (SlotsRising s.slots → SlotsRising (s.setSlot k p).slots)

/-- 00_scope R6 (a), the other side: no instruction that answers has carried a counter above 2^CTR_W − 1. -/
def Obligations.CountersNeverPassWidth : Prop :=
  ∀ (s t : State) (i : Instr), s.CountersFit → exec i s = .next t → t.CountersFit
end

