-- ==== Sys2Proof/Laws/Decode.lean ====
section
/-! SUPPORT. The header bits, the frame and the command word: what the decoder and the encoder compute. -/

namespace Sys2Proof

@[simp] theorem headerFlag0_headerByte1 (p : Packet) : headerFlag0 (headerByte1 p) = p.flag0 := by
  simp only [headerFlag0, headerByte1, BitVec.getLsbD_append]; simp

@[simp] theorem headerFlag1_headerByte1 (p : Packet) : headerFlag1 (headerByte1 p) = p.flag1 := by
  simp only [headerFlag1, headerByte1, BitVec.getLsbD_append]; simp

@[simp] theorem headerFlag2_headerByte1 (p : Packet) : headerFlag2 (headerByte1 p) = p.flag2 := by
  simp only [headerFlag2, headerByte1, BitVec.getLsbD_append]; simp

/-- `pid = 256 × (b[1] mod 32) + b[2]` (30_encoding R83). -/
theorem headerPid_toNat (b1 b2 : Byte) : (headerPid b1 b2).toNat = 256 * (b1.toNat % 32) + b2.toNat := by
  have hmask : (b1 &&& 0x1F#8).toNat = b1.toNat % 32 := by
    rw [BitVec.toNat_and]; exact Nat.and_two_pow_sub_one_eq_mod b1.toNat 5
  have h1 : b1.toNat % 32 < 32 := Nat.mod_lt _ (by decide)
  have h2 := b2.isLt
  have hor : (b1.toNat % 32) <<< 8 ||| b2.toNat = 256 * (b1.toNat % 32) + b2.toNat := by
    rw [← Nat.shiftLeft_add_eq_or_of_lt h2, Nat.shiftLeft_eq]; omega
  have hs : (b1.toNat % 32) <<< 8 < 8192 := by rw [Nat.shiftLeft_eq]; omega
  simp only [headerPid, BitVec.toNat_or, BitVec.toNat_shiftLeft, BitVec.toNat_setWidth, hmask]
  rw [Nat.mod_eq_of_lt (a := b1.toNat % 32) (by omega), Nat.mod_eq_of_lt (a := b2.toNat) (by omega),
    Nat.mod_eq_of_lt (by omega), hor]

@[simp] theorem headerPid_headerBytes (p : Packet) : headerPid (headerByte1 p) (headerByte2 p) = p.pid := by
  apply BitVec.eq_of_toNat_eq
  have hpid := p.pid.isLt
  have h1 : (headerByte1 p).toNat % 32 = p.pid.toNat / 256 := by
    unfold headerByte1
    rw [BitVec.toNat_append, Nat.shiftLeft_eq, BitVec.extractLsb'_toNat, Nat.shiftRight_eq_div_pow]
    have : p.pid.toNat / 2 ^ 8 % 2 ^ 5 < 2 ^ 5 := Nat.mod_lt _ (by decide)
    rw [← Nat.shiftLeft_eq, ← Nat.shiftLeft_add_eq_or_of_lt this, Nat.shiftLeft_eq]
    omega
  rw [headerPid_toNat, h1, headerByte2, BitVec.extractLsb'_toNat, Nat.shiftRight_zero]
  omega

/-- Header bytes 1 and 2 read into their fields and put together again are the bytes. -/
theorem headerByte1_of_fields (b1 b2 : Byte) (payload : List Byte) :
    headerByte1 ⟨headerFlag0 b1, headerFlag1 b1, headerFlag2 b1, headerPid b1 b2, payload⟩ = b1 := by
  have hpid : (headerPid b1 b2).extractLsb' 8 5 = b1.extractLsb' 0 5 := by
    apply BitVec.eq_of_toNat_eq
    have := b2.isLt
    rw [BitVec.extractLsb'_toNat, BitVec.extractLsb'_toNat, headerPid_toNat, Nat.shiftRight_eq_div_pow,
      Nat.shiftRight_zero]
    omega
  apply BitVec.eq_of_getLsbD_eq
  intro i hi
  simp only [headerByte1, hpid, headerFlag0, headerFlag1, headerFlag2, BitVec.getLsbD_append]
  have : i = 0 ∨ i = 1 ∨ i = 2 ∨ i = 3 ∨ i = 4 ∨ i = 5 ∨ i = 6 ∨ i = 7 := by omega
  rcases this with rfl | rfl | rfl | rfl | rfl | rfl | rfl | rfl <;> simp

theorem headerByte2_of_fields (f0 f1 f2 : Bool) (b1 b2 : Byte) (payload : List Byte) :
    headerByte2 ⟨f0, f1, f2, headerPid b1 b2, payload⟩ = b2 := by
  apply BitVec.eq_of_toNat_eq
  have := b2.isLt
  rw [headerByte2, BitVec.extractLsb'_toNat, headerPid_toNat, Nat.shiftRight_zero]
  omega

/-- A command word is its three fields (30_encoding R90). -/
theorem command_fields (w : BitVec 32) :
    w.toNat = 268435456 * (commandOp w).toNat + 65536 * (commandZero w).toNat + (commandArg w).toNat := by
  have := w.isLt
  simp only [commandOp, commandZero, commandArg, BitVec.extractLsb'_toNat, Nat.shiftRight_eq_div_pow]
  omega

/-- The word of a row with operation bits `hi` and argument `lo` (30_encoding R91). -/
theorem command_append_toNat (hi lo : BitVec 16) : BitVec.toNat (w := 32) (hi ++ lo) = 65536 * hi.toNat + lo.toNat := by
  rw [BitVec.toNat_append, ← Nat.shiftLeft_add_eq_or_of_lt lo.isLt, Nat.shiftLeft_eq]
  omega

@[simp] theorem encodeFrame_length (p : Packet) : (encodeFrame p).length = 3 + p.payload.length := by
  simp [encodeFrame]; omega

@[simp] theorem byteAt_encodeFrame_zero (p : Packet) : byteAt (encodeFrame p) 0 = marker := rfl

/-- Reading the record of an encoded frame gives it back. -/
theorem packetAt_encodeFrame {p : Packet} (h : p.wf = true) : packetAt (encodeFrame p) 0 = p := by
  have hlen : p.payload.length = 185 := by simpa [Packet.wf] using h
  have h1 : byteAt (encodeFrame p) 1 = headerByte1 p := rfl
  have h2 : byteAt (encodeFrame p) 2 = headerByte2 p := rfl
  have h3 : (encodeFrame p).drop 3 = p.payload := rfl
  obtain ⟨f0, f1, f2, pid, payload⟩ := p
  simp [packetAt, payloadAt, h1, h2, h3, ← hlen]

/-- A record read where a whole frame stands has its 185 payload bytes. -/
theorem packetAt_wf {buf : List Byte} {off : Nat} (h : off + 188 ≤ buf.length) : (packetAt buf off).wf = true := by
  simp [Packet.wf, packetAt, payloadAt]; omega

theorem byteAt_append {pre post : List Byte} {i : Nat} (h : i < pre.length) : byteAt (pre ++ post) i = byteAt pre i := by
  simp [byteAt, List.getElem?_append_left h]

theorem byteAt_append_right {pre post : List Byte} {i : Nat} (h : pre.length ≤ i) :
    byteAt (pre ++ post) i = byteAt post (i - pre.length) := by
  simp [byteAt, List.getElem?_append_right h]

theorem byteAt_drop (buf : List Byte) (m i : Nat) : byteAt (buf.drop m) i = byteAt buf (m + i) := by
  simp [byteAt, List.getD_eq_getElem?_getD]

theorem byteAt_take {buf : List Byte} {m i : Nat} (h : i < m) : byteAt (buf.take m) i = byteAt buf i := by
  simp [byteAt, h]

@[simp] theorem csrOfNumber_csrNumber (r : Csr) : csrOfNumber (csrNumber r).toNat = some r := by cases r <;> rfl

/-- Only its own number names a register. -/
theorem csrNumber_of_csrOfNumber {n : BitVec 16} {r : Csr} (h : csrOfNumber n.toNat = some r) : csrNumber r = n := by
  apply BitVec.eq_of_toNat_eq
  revert h
  generalize n.toNat = m
  unfold csrOfNumber
  split <;> rintro ⟨⟩ <;> rfl

/-- Numbers above 8 name no register (30_encoding R92). -/
theorem csrOfNumber_eq_none {n : Nat} : csrOfNumber n = none ↔ 8 < n := by
  refine ⟨fun h => ?_, fun h => ?_⟩
  · by_contra hle
    have : n = 0 ∨ n = 1 ∨ n = 2 ∨ n = 3 ∨ n = 4 ∨ n = 5 ∨ n = 6 ∨ n = 7 ∨ n = 8 := by omega
    rcases this with rfl | rfl | rfl | rfl | rfl | rfl | rfl | rfl | rfl <;> cases h
  · unfold csrOfNumber
    split <;> first | rfl | omega

end Sys2Proof
end

