-- ==== Sys2Proof/Laws/State.lean ====
section
/-! SUPPORT. Beside State: one lemma per field per update, and the chaining of outcomes. -/

namespace Sys2Proof.Machine

@[simp] theorem State.setSlot_cfg (k : Nat) (p : Packet) (s : State) : (s.setSlot k p).cfg = s.cfg := rfl
@[simp] theorem State.setSlot_pstate (k : Nat) (p : Packet) (s : State) : (s.setSlot k p).pstate = s.pstate := rfl
@[simp] theorem State.setSlot_bytesRead (k : Nat) (p : Packet) (s : State) : (s.setSlot k p).bytesRead = s.bytesRead := rfl
@[simp] theorem State.setSlot_bytesParsed (k : Nat) (p : Packet) (s : State) : (s.setSlot k p).bytesParsed = s.bytesParsed := rfl
@[simp] theorem State.setSlot_packetsParsed (k : Nat) (p : Packet) (s : State) : (s.setSlot k p).packetsParsed = s.packetsParsed := rfl
@[simp] theorem State.setSlot_win (k : Nat) (p : Packet) (s : State) : (s.setSlot k p).win = s.win := rfl
@[simp] theorem State.setSlot_frm (k : Nat) (p : Packet) (s : State) : (s.setSlot k p).frm = s.frm := rfl
@[simp] theorem State.setSlot_slots (k : Nat) (p : Packet) (s : State) : (s.setSlot k p).slots = slotWrite k p s.slots := rfl
@[simp] theorem State.setSlot_resCount (k : Nat) (p : Packet) (s : State) : (s.setSlot k p).resCount = s.resCount := rfl
@[simp] theorem State.setSlot_resErr (k : Nat) (p : Packet) (s : State) : (s.setSlot k p).resErr = s.resErr := rfl
@[simp] theorem State.setSlot_errBytesRead (k : Nat) (p : Packet) (s : State) : (s.setSlot k p).errBytesRead = s.errBytesRead := rfl
@[simp] theorem State.setSlot_errBytesParsed (k : Nat) (p : Packet) (s : State) : (s.setSlot k p).errBytesParsed = s.errBytesParsed := rfl
@[simp] theorem State.setSlot_errPackets (k : Nat) (p : Packet) (s : State) : (s.setSlot k p).errPackets = s.errPackets := rfl
@[simp] theorem State.setSlot_src (k : Nat) (p : Packet) (s : State) : (s.setSlot k p).src = s.src := rfl
@[simp] theorem State.setSlot_pending (k : Nat) (p : Packet) (s : State) : (s.setSlot k p).pending = s.pending := rfl
@[simp] theorem State.setSlot_answer (k : Nat) (p : Packet) (s : State) : (s.setSlot k p).answer = s.answer := rfl
@[simp] theorem State.setSlot_resets (k : Nat) (p : Packet) (s : State) : (s.setSlot k p).resets = s.resets := rfl

@[simp] theorem State.recordError_cfg (s : State) : (s.recordError).cfg = s.cfg := rfl
@[simp] theorem State.recordError_pstate (s : State) : (s.recordError).pstate = s.pstate := rfl
@[simp] theorem State.recordError_bytesRead (s : State) : (s.recordError).bytesRead = s.bytesRead := rfl
@[simp] theorem State.recordError_bytesParsed (s : State) : (s.recordError).bytesParsed = s.bytesParsed := rfl
@[simp] theorem State.recordError_packetsParsed (s : State) : (s.recordError).packetsParsed = s.packetsParsed := rfl
@[simp] theorem State.recordError_win (s : State) : (s.recordError).win = s.win := rfl
@[simp] theorem State.recordError_frm (s : State) : (s.recordError).frm = s.frm := rfl
@[simp] theorem State.recordError_slots (s : State) : (s.recordError).slots = s.slots := rfl
@[simp] theorem State.recordError_resCount (s : State) : (s.recordError).resCount = s.resCount := rfl
@[simp] theorem State.recordError_resErr (s : State) : (s.recordError).resErr = s.resErr := rfl
@[simp] theorem State.recordError_errBytesRead (s : State) : (s.recordError).errBytesRead = s.bytesRead := rfl
@[simp] theorem State.recordError_errBytesParsed (s : State) : (s.recordError).errBytesParsed = s.bytesParsed := rfl
@[simp] theorem State.recordError_errPackets (s : State) : (s.recordError).errPackets = s.packetsParsed := rfl
@[simp] theorem State.recordError_src (s : State) : (s.recordError).src = s.src := rfl
@[simp] theorem State.recordError_pending (s : State) : (s.recordError).pending = s.pending := rfl
@[simp] theorem State.recordError_answer (s : State) : (s.recordError).answer = s.answer := rfl
@[simp] theorem State.recordError_resets (s : State) : (s.recordError).resets = s.resets := rfl

@[simp] theorem State.withRequest_cfg (r : Request) (s : State) : (s.withRequest r).cfg = s.cfg := rfl
@[simp] theorem State.withRequest_pstate (r : Request) (s : State) : (s.withRequest r).pstate = s.pstate := rfl
@[simp] theorem State.withRequest_bytesRead (r : Request) (s : State) : (s.withRequest r).bytesRead = s.bytesRead := rfl
@[simp] theorem State.withRequest_bytesParsed (r : Request) (s : State) : (s.withRequest r).bytesParsed = s.bytesParsed := rfl
@[simp] theorem State.withRequest_packetsParsed (r : Request) (s : State) : (s.withRequest r).packetsParsed = s.packetsParsed := rfl
@[simp] theorem State.withRequest_win (r : Request) (s : State) : (s.withRequest r).win = s.win := rfl
@[simp] theorem State.withRequest_frm (r : Request) (s : State) : (s.withRequest r).frm = s.frm := rfl
@[simp] theorem State.withRequest_slots (r : Request) (s : State) : (s.withRequest r).slots = s.slots := rfl
@[simp] theorem State.withRequest_resCount (r : Request) (s : State) : (s.withRequest r).resCount = s.resCount := rfl
@[simp] theorem State.withRequest_resErr (r : Request) (s : State) : (s.withRequest r).resErr = s.resErr := rfl
@[simp] theorem State.withRequest_errBytesRead (r : Request) (s : State) : (s.withRequest r).errBytesRead = s.errBytesRead := rfl
@[simp] theorem State.withRequest_errBytesParsed (r : Request) (s : State) : (s.withRequest r).errBytesParsed = s.errBytesParsed := rfl
@[simp] theorem State.withRequest_errPackets (r : Request) (s : State) : (s.withRequest r).errPackets = s.errPackets := rfl
@[simp] theorem State.withRequest_src (r : Request) (s : State) : (s.withRequest r).src = s.src := rfl
@[simp] theorem State.withRequest_pending (r : Request) (s : State) : (s.withRequest r).pending = r :: s.pending := rfl
@[simp] theorem State.withRequest_answer (r : Request) (s : State) : (s.withRequest r).answer = s.answer := rfl
@[simp] theorem State.withRequest_resets (r : Request) (s : State) : (s.withRequest r).resets = s.resets := rfl

@[simp] theorem State.toReset_cfg (s : State) : (s.toReset).cfg = s.cfg := by simp only [State.toReset]
@[simp] theorem State.toReset_pstate (s : State) : (s.toReset).pstate = .unsync := by simp only [State.toReset]
@[simp] theorem State.toReset_bytesRead (s : State) : (s.toReset).bytesRead = 0 := by simp only [State.toReset]
@[simp] theorem State.toReset_bytesParsed (s : State) : (s.toReset).bytesParsed = 0 := by simp only [State.toReset]
@[simp] theorem State.toReset_packetsParsed (s : State) : (s.toReset).packetsParsed = 0 := by simp only [State.toReset]
@[simp] theorem State.toReset_win (s : State) : (s.toReset).win = freeWin (s.resets + 1) := by simp only [State.toReset]
@[simp] theorem State.toReset_frm (s : State) : (s.toReset).frm = freeFrm (s.resets + 1) := by simp only [State.toReset]
@[simp] theorem State.toReset_slots (s : State) : (s.toReset).slots = [] := by simp only [State.toReset]
@[simp] theorem State.toReset_resCount (s : State) : (s.toReset).resCount = 0#16 := by simp only [State.toReset]
@[simp] theorem State.toReset_resErr (s : State) : (s.toReset).resErr = .none := by simp only [State.toReset]
@[simp] theorem State.toReset_errBytesRead (s : State) : (s.toReset).errBytesRead = 0 := by simp only [State.toReset]
@[simp] theorem State.toReset_errBytesParsed (s : State) : (s.toReset).errBytesParsed = 0 := by simp only [State.toReset]
@[simp] theorem State.toReset_errPackets (s : State) : (s.toReset).errPackets = 0 := by simp only [State.toReset]
@[simp] theorem State.toReset_src (s : State) : (s.toReset).src = s.src := by simp only [State.toReset]
@[simp] theorem State.toReset_pending (s : State) : (s.toReset).pending = s.pending := by simp only [State.toReset]
@[simp] theorem State.toReset_answer (s : State) : (s.toReset).answer = .done := by simp only [State.toReset]
@[simp] theorem State.toReset_resets (s : State) : (s.toReset).resets = s.resets + 1 := by simp only [State.toReset]

@[simp] theorem finish_cfg (n : Nat) (e : ErrKind) (s : State) : (finish n e s).cfg = s.cfg := by
  unfold finish; split <;> rfl
@[simp] theorem finish_pstate (n : Nat) (e : ErrKind) (s : State) : (finish n e s).pstate = s.pstate := by
  unfold finish; split <;> rfl
@[simp] theorem finish_bytesRead (n : Nat) (e : ErrKind) (s : State) : (finish n e s).bytesRead = s.bytesRead := by
  unfold finish; split <;> rfl
@[simp] theorem finish_bytesParsed (n : Nat) (e : ErrKind) (s : State) : (finish n e s).bytesParsed = s.bytesParsed := by
  unfold finish; split <;> rfl
@[simp] theorem finish_packetsParsed (n : Nat) (e : ErrKind) (s : State) : (finish n e s).packetsParsed = s.packetsParsed := by
  unfold finish; split <;> rfl
@[simp] theorem finish_win (n : Nat) (e : ErrKind) (s : State) : (finish n e s).win = s.win := by
  unfold finish; split <;> rfl
@[simp] theorem finish_frm (n : Nat) (e : ErrKind) (s : State) : (finish n e s).frm = s.frm := by
  unfold finish; split <;> rfl
@[simp] theorem finish_slots (n : Nat) (e : ErrKind) (s : State) : (finish n e s).slots = s.slots := by
  unfold finish; split <;> rfl
@[simp] theorem finish_resCount (n : Nat) (e : ErrKind) (s : State) : (finish n e s).resCount = BitVec.ofNat 16 n := by
  unfold finish; split <;> rfl
@[simp] theorem finish_resErr (n : Nat) (e : ErrKind) (s : State) : (finish n e s).resErr = e := by
  unfold finish; split <;> rfl
@[simp] theorem finish_errBytesRead (n : Nat) (e : ErrKind) (s : State) : (finish n e s).errBytesRead = if e = .none then s.errBytesRead else s.bytesRead := by
  unfold finish; split <;> rfl
@[simp] theorem finish_errBytesParsed (n : Nat) (e : ErrKind) (s : State) : (finish n e s).errBytesParsed = if e = .none then s.errBytesParsed else s.bytesParsed := by
  unfold finish; split <;> rfl
@[simp] theorem finish_errPackets (n : Nat) (e : ErrKind) (s : State) : (finish n e s).errPackets = if e = .none then s.errPackets else s.packetsParsed := by
  unfold finish; split <;> rfl
@[simp] theorem finish_src (n : Nat) (e : ErrKind) (s : State) : (finish n e s).src = s.src := by
  unfold finish; split <;> rfl
@[simp] theorem finish_pending (n : Nat) (e : ErrKind) (s : State) : (finish n e s).pending = s.pending := by
  unfold finish; split <;> rfl
@[simp] theorem finish_answer (n : Nat) (e : ErrKind) (s : State) : (finish n e s).answer = .filled (BitVec.ofNat 16 n) e := by
  unfold finish; split <;> rfl
@[simp] theorem finish_resets (n : Nat) (e : ErrKind) (s : State) : (finish n e s).resets = s.resets := by
  unfold finish; split <;> rfl

@[simp] theorem andThen_next {α β : Type} (a : α) (k : α → Outcome β) : andThen (.next a) k = k a := rfl
@[simp] theorem andThen_fault {α β : Type} (f : Fault) (k : α → Outcome β) : andThen (.fault f) k = .fault f := rfl
@[simp] theorem andThen_refused {α β : Type} (r : Refusal) (k : α → Outcome β) : andThen (.refused r) k = .refused r := rfl

/-- A chain answers exactly when both its parts do. -/
theorem andThen_eq_next {α β : Type} {o : Outcome α} {k : α → Outcome β} {b : β} :
    andThen o k = .next b ↔ ∃ a, o = .next a ∧ k a = .next b := by
  cases o <;> simp

/-- A chain is refused where a part is. -/
theorem andThen_eq_refused {α β : Type} {o : Outcome α} {k : α → Outcome β} {r : Refusal} :
    andThen o k = .refused r ↔ o = .refused r ∨ ∃ a, o = .next a ∧ k a = .refused r := by
  cases o <;> simp

end Sys2Proof.Machine
end

