-- ==== Sys2Proof/Laws/Slots.lean ====
section
/-! SUPPORT. The slot file (20_memory R62; log 10). -/

namespace Sys2Proof.Machine

theorem slotLookup_write_self (k : Nat) (p : Packet) (l : List (Nat × Packet)) :
    slotLookup k (slotWrite k p l) = some p := by
  induction l with
  | nil => simp [slotWrite, slotLookup]
  | cons e rest ih =>
    obtain ⟨j, q⟩ := e
    simp only [slotWrite]
    split
    · simp [slotLookup]
    · split
      · simp [slotLookup]
      · rw [slotLookup, if_neg (by omega), ih]

theorem slotLookup_write_ne {k j : Nat} (h : j ≠ k) (p : Packet) (l : List (Nat × Packet)) :
    slotLookup j (slotWrite k p l) = slotLookup j l := by
  induction l with
  | nil => simp [slotWrite, slotLookup, Ne.symm h]
  | cons e rest ih =>
    obtain ⟨i, q⟩ := e
    simp only [slotWrite]
    split
    · rw [slotLookup, if_neg (by omega)]
    · split
      · subst_vars; simp [slotLookup, Ne.symm h]
      · simp only [slotLookup, ih]

theorem mem_slotWrite {k : Nat} {p : Packet} {l : List (Nat × Packet)} {e : Nat × Packet}
    (h : e ∈ slotWrite k p l) : e = (k, p) ∨ e ∈ l := by
  induction l with
  | nil => simp_all [slotWrite]
  | cons d rest ih =>
    obtain ⟨i, q⟩ := d
    simp only [slotWrite] at h
    split at h
    · simp_all
    · split at h
      · simp_all; tauto
      · rw [List.mem_cons] at h
        obtain rfl | h := h
        · simp
        · obtain rfl | h := ih h <;> simp_all

/-- Every slot write keeps the slot list's form. -/
theorem slotWrite_rising {l : List (Nat × Packet)} (h : SlotsRising l) (k : Nat) (p : Packet) :
    SlotsRising (slotWrite k p l) := by
  induction l with
  | nil => simp [slotWrite]
  | cons d rest ih =>
    obtain ⟨i, q⟩ := d
    rw [SlotsRising, List.pairwise_cons] at h
    simp only [slotWrite]
    split
    · rename_i hk
      refine List.pairwise_cons.2 ⟨?_, List.pairwise_cons.2 h⟩
      intro e he
      rw [List.mem_cons] at he
      obtain rfl | he := he
      · exact hk
      · exact Nat.lt_trans hk (h.1 e he)
    · split
      · subst_vars; exact List.pairwise_cons.2 h
      · refine List.pairwise_cons.2 ⟨fun e he => ?_, ih h.2⟩
        obtain rfl | he := mem_slotWrite he
        · show i < k; omega
        · exact h.1 e he

/-- The slot file at reset has the form. -/
theorem reset_slotsRising : SlotsRising State.reset.slots := List.Pairwise.nil

end Sys2Proof.Machine
end

