-- ==== Sys2Proof/Laws/Source.lean ====
section
/-! SUPPORT. The byte source and the read with its accounting (20_memory R52 to R55). -/

namespace Sys2Proof.Machine

theorem Source.take_of_le {n : Nat} {src : Source} (h : n ≤ src.bytes.length) :
    src.take n = some (src.bytes.take n) := by simp [Source.take, h]

theorem Source.take_ended {n : Nat} {bytes : List Byte} (h : bytes.length < n) :
    Source.take n ⟨bytes, .ended⟩ = some bytes := by simp [Source.take, Nat.not_le.2 h]

theorem Source.take_silent {n : Nat} {bytes : List Byte} (h : bytes.length < n) :
    Source.take n ⟨bytes, .silent⟩ = none := by simp [Source.take, Nat.not_le.2 h]

/-- A read returns at most what was asked for. -/
theorem Source.take_length_le {n : Nat} {src : Source} {bytes : List Byte} (h : src.take n = some bytes) :
    bytes.length ≤ n := by
  unfold Source.take at h
  split at h
  · cases h; simp
  · split at h
    · cases h; omega
    · cases h
    · cases h; simp; omega

/-- A read is short only where it exhausts the source (20_memory R52). -/
theorem Source.take_short {n : Nat} {src : Source} {bytes : List Byte} (h : src.take n = some bytes)
    (hlt : bytes.length < n) : src.bytes = bytes ∧ src.after = .ended := by
  unfold Source.take at h
  split at h
  · cases h; simp at hlt; omega
  · split at h
    · cases h; exact ⟨rfl, ‹_›⟩
    · cases h
    · cases h; simp at hlt; omega

/-- A read returns only bytes the source has: listed ones, or those of an endless source. -/
theorem Source.take_supplied {n : Nat} {src : Source} {bytes : List Byte} (h : src.take n = some bytes) :
    bytes.length ≤ src.bytes.length ∨ ∃ next, src.after = .endless next := by
  unfold Source.take at h
  split at h
  · cases h; left; simp
  · split at h
    · cases h; exact .inl (Nat.le_refl _)
    · cases h
    · exact .inr ⟨_, ‹_›⟩

/-- A source that is not silent answers every read. -/
theorem Source.take_isSome {n : Nat} {src : Source} (h : src.after ≠ .silent) : ∃ bytes, src.take n = some bytes := by
  unfold Source.take
  split
  · exact ⟨_, rfl⟩
  · split
    · exact ⟨_, rfl⟩
    · exact absurd ‹_› h
    · exact ⟨_, rfl⟩

@[simp] theorem Source.advance_zero (src : Source) : src.advance 0 = src := by
  obtain ⟨bytes, after⟩ := src
  cases after <;> simp [Source.advance]

/-- The cursor only adds up. -/
theorem Source.advance_advance (m n : Nat) (src : Source) : (src.advance m).advance n = src.advance (m + n) := by
  obtain ⟨bytes, after⟩ := src
  cases after <;> simp [Source.advance]
  omega

/-- Within the listed bytes the cursor moves over them alone. -/
theorem Source.advance_append {pre post : List Byte} {after : SourceEnd} :
    Source.advance pre.length ⟨pre ++ post, after⟩ = ⟨post, after⟩ := by
  cases after <;> simp [Source.advance]

theorem Source.advance_all {bytes : List Byte} {after : SourceEnd} :
    Source.advance bytes.length ⟨bytes, after⟩ = ⟨[], after⟩ := by
  cases after <;> simp [Source.advance]

theorem Source.advance_after_silent {m : Nat} {src : Source} (h : src.after ≠ .silent) :
    (src.advance m).after ≠ .silent := by
  obtain ⟨bytes, after⟩ := src
  cases after <;> simp_all [Source.advance]

/-- An exhausted source stays exhausted (20_memory R54). -/
theorem Source.Exhausted.advance {src : Source} (h : src.Exhausted) (m : Nat) : (src.advance m).Exhausted := by
  obtain ⟨bytes, after⟩ := src
  obtain ⟨rfl, rfl⟩ := h
  exact ⟨List.drop_nil, rfl⟩

/-- Everything a read with its accounting can do when it answers. -/
theorem srcReadFull_next {n : Nat} {s t : State} {bytes : List Byte} :
    srcReadFull n s = .next (bytes, t) ↔
      s.src.take n = some bytes ∧ s.bytesRead + bytes.length < 2 ^ s.cfg.ctrW ∧
        t = { s with bytesRead := s.bytesRead + bytes.length, src := s.src.advance bytes.length } := by
  unfold srcReadFull
  split
  · simp_all
  · rename_i bs hbs
    simp only [andThen_eq_next, countRead, hbs]
    constructor
    · rintro ⟨u, hu, ht⟩
      split at hu
      · cases hu; cases ht; exact ⟨rfl, ‹_›, rfl⟩
      · cases hu
    · rintro ⟨⟨⟩, hroom, rfl⟩
      exact ⟨{ s with bytesRead := s.bytesRead + bytes.length }, by simp [hroom], rfl⟩

/-- A read wholly served by the listed bytes. -/
theorem srcReadFull_append {s : State} {pre post : List Byte} {after : SourceEnd} (hsrc : s.src = ⟨pre ++ post, after⟩)
    (hroom : s.bytesRead + pre.length < 2 ^ s.cfg.ctrW) :
    srcReadFull pre.length s =
      .next (pre, { s with bytesRead := s.bytesRead + pre.length, src := ⟨post, after⟩ }) := by
  rw [srcReadFull_next]
  refine ⟨?_, hroom, ?_⟩
  · rw [Source.take_of_le (by simp [hsrc])]; simp [hsrc]
  · rw [hsrc, Source.advance_append]

/-- A read that takes the last bytes of a source that ends. -/
theorem srcReadFull_ended {n : Nat} {s : State} {bytes : List Byte} (hsrc : s.src = ⟨bytes, .ended⟩)
    (hlt : bytes.length < n) (hroom : s.bytesRead + bytes.length < 2 ^ s.cfg.ctrW) :
    srcReadFull n s =
      .next (bytes, { s with bytesRead := s.bytesRead + bytes.length, src := ⟨[], .ended⟩ }) := by
  rw [srcReadFull_next]
  refine ⟨?_, hroom, ?_⟩
  · rw [hsrc, Source.take_ended hlt]
  · rw [hsrc, Source.advance_all]

/-- A read a silent source cannot serve never completes (20_memory R55). -/
theorem srcReadFull_silent {n : Nat} {s : State} {bytes : List Byte} (hsrc : s.src = ⟨bytes, .silent⟩)
    (hlt : bytes.length < n) : srcReadFull n s = .fault .sourceBlocked := by
  unfold srcReadFull
  rw [hsrc, Source.take_silent hlt]

/-- A read whose bytes the counter cannot take is refused (00_scope R6). -/
theorem srcReadFull_overflow {n : Nat} {s : State} {bytes : List Byte} (hb : s.src.take n = some bytes)
    (hover : 2 ^ s.cfg.ctrW ≤ s.bytesRead + bytes.length) : srcReadFull n s = .refused .counterOverflow := by
  simp only [srcReadFull, hb, countRead, Nat.not_lt.2 hover, if_false, andThen_refused]

/-- A read completes on a source that is not silent, given room in the counter. -/
theorem srcReadFull_answers {n : Nat} {s : State} (h : s.src.after ≠ .silent)
    (hroom : s.bytesRead + n < 2 ^ s.cfg.ctrW) :
    ∃ bytes t, srcReadFull n s = .next (bytes, t) ∧ bytes.length ≤ n := by
  obtain ⟨bytes, hb⟩ := Source.take_isSome (n := n) h
  have hle := Source.take_length_le hb
  exact ⟨bytes, _, srcReadFull_next.2 ⟨hb, by omega, rfl⟩, hle⟩

/-- A read is refused only by the counter. -/
theorem srcReadFull_refused {n : Nat} {s : State} {r : Refusal} (h : srcReadFull n s = .refused r) :
    r = .counterOverflow := by
  unfold srcReadFull at h
  split at h
  · cases h
  · simp only [andThen_eq_refused, countRead] at h
    obtain h | ⟨u, -, h⟩ := h
    · split at h <;> cases h; rfl
    · cases h

end Sys2Proof.Machine
end

