-- ==== Sys2Proof/Laws/Ops.lean ====
section
/-! SUPPORT. What the shared operations over buffers and counters can do, each said once. -/

namespace Sys2Proof.Machine

@[simp] theorem freeWin_length (e : Nat) : (freeWin e).length = 564 := by
  rw [freeWin, List.length_map, List.length_range]

@[simp] theorem freeFrm_length (e : Nat) : (freeFrm e).length = 188 := by
  rw [freeFrm, List.length_map, List.length_range]

/-- Everything DECODE of a buffer can do when it answers (42_decode R157). -/
theorem decodeBuf_next {buf : List Byte} {off : Nat} {s t : State} {r : DecodeResult} :
    decodeBuf buf off s = .next (r, t) ↔
      (buf.length < off + 188 ∧ r = .err .bufferTooSmall ∧ t = s) ∨
      (off + 188 ≤ buf.length ∧ byteAt buf off ≠ marker ∧ r = .err .noMarkerPresent ∧ t = s) ∨
      (off + 188 ≤ buf.length ∧ byteAt buf off = marker ∧ s.packetsParsed + 1 < 2 ^ s.cfg.ctrW ∧
        s.bytesParsed + 188 < 2 ^ s.cfg.ctrW ∧ r = .ok (packetAt buf off) ∧
        t = { s with packetsParsed := s.packetsParsed + 1, bytesParsed := s.bytesParsed + 188 }) := by
  unfold decodeBuf
  by_cases hlen : buf.length < off + 188
  · simp [hlen, Nat.not_le.2 hlen, eq_comm]
  by_cases hm : byteAt buf off = marker
  · by_cases hroom : s.packetsParsed + 1 < 2 ^ s.cfg.ctrW ∧ s.bytesParsed + 188 < 2 ^ s.cfg.ctrW
    · simp [hlen, hm, countPacket, hroom, Nat.not_lt.1 hlen, eq_comm]
    · simp [hlen, hm, countPacket, hroom]; exact fun _ h1 h2 => absurd ⟨h1, h2⟩ hroom
  · simp [hlen, hm, Nat.not_lt.1 hlen, eq_comm]

/-- DECODE of a good frame is the counting of one packet (42_decode R156). -/
theorem decodeBuf_good {buf : List Byte} {off : Nat} {s : State} (hlen : off + 188 ≤ buf.length)
    (hm : byteAt buf off = marker) :
    decodeBuf buf off s = andThen (countPacket s) fun t => .next (.ok (packetAt buf off), t) := by
  simp [decodeBuf, hm, Nat.not_lt.2 hlen]

/-- DECODE where a whole frame with its marker stands and the counters have room. -/
theorem decodeBuf_ok {buf : List Byte} {off : Nat} {s : State} (hlen : off + 188 ≤ buf.length)
    (hm : byteAt buf off = marker) (hp : s.packetsParsed + 1 < 2 ^ s.cfg.ctrW)
    (hb : s.bytesParsed + 188 < 2 ^ s.cfg.ctrW) :
    decodeBuf buf off s = .next (.ok (packetAt buf off),
      { s with packetsParsed := s.packetsParsed + 1, bytesParsed := s.bytesParsed + 188 }) :=
  decodeBuf_next.2 (.inr (.inr ⟨hlen, hm, hp, hb, rfl, rfl⟩))

theorem decodeBuf_noMarker {buf : List Byte} {off : Nat} {s : State} (hlen : off + 188 ≤ buf.length)
    (hm : byteAt buf off ≠ marker) : decodeBuf buf off s = .next (.err .noMarkerPresent, s) :=
  decodeBuf_next.2 (.inr (.inl ⟨hlen, hm, rfl, rfl⟩))

/-- DECODE is refused only by a counter. -/
theorem decodeBuf_refused {buf : List Byte} {off : Nat} {s : State} {r : Refusal}
    (h : decodeBuf buf off s = .refused r) : r = .counterOverflow := by
  unfold decodeBuf countPacket at h
  repeat' split at h
  all_goals simp at h
  exact h.symm

/-- DECODE never faults. -/
theorem decodeBuf_not_fault {buf : List Byte} {off : Nat} {s : State} {f : Fault} : decodeBuf buf off s ≠ .fault f := by
  unfold decodeBuf countPacket
  repeat' split
  all_goals simp

/-- The packets `ps` written to the slots `n`, `n + 1`, ... in order. -/
def slotWriteFrom : Nat → List Packet → List (Nat × Packet) → List (Nat × Packet)
  | _, [], l => l
  | n, p :: ps, l => slotWriteFrom (n + 1) ps (slotWrite n p l)

theorem slotLookup_writeFrom_lt {n k : Nat} (h : k < n) (ps : List Packet) (l : List (Nat × Packet)) :
    slotLookup k (slotWriteFrom n ps l) = slotLookup k l := by
  induction ps generalizing n l with
  | nil => rfl
  | cons p ps ih => rw [slotWriteFrom, ih (by omega), slotLookup_write_ne (by omega)]

theorem slotLookup_writeFrom_ge {n k : Nat} (ps : List Packet) (h : n + ps.length ≤ k) (l : List (Nat × Packet)) :
    slotLookup k (slotWriteFrom n ps l) = slotLookup k l := by
  induction ps generalizing n l with
  | nil => rfl
  | cons p ps ih =>
    rw [List.length_cons] at h
    rw [slotWriteFrom, ih (by omega), slotLookup_write_ne (by omega)]

/-- Each of the packets stands in its slot. -/
theorem slotLookup_writeFrom (n : Nat) (ps : List Packet) {k : Nat} (h : k < ps.length) (l : List (Nat × Packet)) :
    slotLookup (n + k) (slotWriteFrom n ps l) = ps[k]? := by
  induction ps generalizing n l k with
  | nil => simp at h
  | cons p ps ih =>
    rw [slotWriteFrom]
    cases k with
    | zero => rw [slotLookup_writeFrom_lt (by omega)]; simp [slotLookup_write_self]
    | succ k =>
      have := ih (n + 1) (k := k) (by simpa using h) (slotWrite n p l)
      simpa [Nat.add_assoc, Nat.add_comm 1 k] using this

theorem slotWriteFrom_rising (n : Nat) (ps : List Packet) {l : List (Nat × Packet)} (h : SlotsRising l) :
    SlotsRising (slotWriteFrom n ps l) := by
  induction ps generalizing n l with
  | nil => exact h
  | cons p ps ih => exact ih _ (slotWrite_rising h n p)

theorem mem_slotWriteFrom {n : Nat} {ps : List Packet} {l : List (Nat × Packet)} {e : Nat × Packet}
    (h : e ∈ slotWriteFrom n ps l) : (n ≤ e.1 ∧ e.1 < n + ps.length ∧ e.2 ∈ ps) ∨ e ∈ l := by
  induction ps generalizing n l with
  | nil => exact .inr h
  | cons p ps ih =>
    obtain ⟨h1, h2, h3⟩ | h := ih h
    · exact .inl ⟨by omega, by simp; omega, by simp [h3]⟩
    · obtain rfl | h := mem_slotWrite h
      · exact .inl ⟨by simp, by simp, by simp⟩
      · exact .inr h

theorem slotWriteFrom_append (n : Nat) (ps qs : List Packet) (l : List (Nat × Packet)) :
    slotWriteFrom n (ps ++ qs) l = slotWriteFrom (n + ps.length) qs (slotWriteFrom n ps l) := by
  induction ps generalizing n l with
  | nil => rfl
  | cons p ps ih => simp [slotWriteFrom, ih, Nat.add_assoc, Nat.add_comm 1]

end Sys2Proof.Machine
end

