-- ==== Sys2Proof/Laws/Synchronizer.lean ====
section
/-! SUPPORT. Everything SYNCHRONIZE can do (41_synchronize). -/

namespace Sys2Proof.Machine

/-- The pattern test is the three marker tests (30_encoding R87). -/
theorem syncAt_iff (w : List Byte) (o : Nat) :
    syncAt w o = true ↔ byteAt w o = marker ∧ byteAt w (o + 188) = marker ∧ byteAt w (o + 376) = marker := by
  unfold syncAt decodePattern
  split <;> simp_all

/-- What the search answers passes the test and lies in 0..187. -/
theorem findSync_sound {w : List Byte} {o : Nat} (h : findSync w = some o) :
    o < 188 ∧ byteAt w o = marker ∧ byteAt w (o + 188) = marker ∧ byteAt w (o + 376) = marker :=
  ⟨List.mem_range.1 (List.mem_of_find?_eq_some h), (syncAt_iff w o).1 (List.find?_some h)⟩

/-- The search answers the lowest offset that passes (41_synchronize R133). -/
theorem findSync_of_lowest {w : List Byte} {o : Nat} (ho : o ≤ 187)
    (hm : byteAt w o = marker ∧ byteAt w (o + 188) = marker ∧ byteAt w (o + 376) = marker)
    (hlow : ∀ c, c < o → ¬(byteAt w c = marker ∧ byteAt w (c + 188) = marker ∧ byteAt w (c + 376) = marker)) :
    findSync w = some o := by
  rw [findSync, List.find?_range_eq_some]
  refine ⟨(syncAt_iff w o).2 hm, by simp; omega, fun c hc => ?_⟩
  rw [Bool.not_eq_true', Bool.eq_false_iff]
  exact fun h => hlow c hc ((syncAt_iff w c).1 h)

theorem thirdFrame_length {w tail : List Byte} {o : Nat} (hw : w.length = 564) (ht : tail.length = o) (ho : o < 188) :
    (thirdFrame w o tail).length = 188 := by
  rw [thirdFrame, List.length_append, List.length_drop]; omega

/-- `FRM[0] = WIN[o+376]` (41_synchronize R137). -/
theorem byteAt_thirdFrame {w tail : List Byte} {o : Nat} (hw : w.length = 564) (ho : o < 188) :
    byteAt (thirdFrame w o tail) 0 = byteAt w (o + 376) := by
  rw [thirdFrame, byteAt_append (by simp; omega), byteAt_drop, Nat.add_zero]

/-- The state after the three decodes (41_synchronize R137 to R139). -/
def afterThree (o : Nat) (tail : List Byte) (s : State) : State :=
  { s with packetsParsed := s.packetsParsed + 3, bytesParsed := s.bytesParsed + 564,
           frm := thirdFrame s.win o tail, pstate := .sync }

/-- The three packets (41_synchronize R137). -/
def threePackets (w : List Byte) (o : Nat) (tail : List Byte) : SyncResult :=
  .ok (packetAt w o) (packetAt w (o + 188)) (packetAt (thirdFrame w o tail) 0)

/-- None of the three decodes can fail (41_synchronize R137): they are refused by a counter or all succeed. -/
theorem decodeThree_eq {s : State} {o : Nat} {tail : List Byte} (hw : s.win.length = 564) (ht : tail.length = o)
    (hsync : findSync s.win = some o) :
    decodeThree o tail s =
      if s.packetsParsed + 3 < 2 ^ s.cfg.ctrW ∧ s.bytesParsed + 564 < 2 ^ s.cfg.ctrW then
        .next (threePackets s.win o tail, afterThree o tail s)
      else .refused .counterOverflow := by
  obtain ⟨ho, h0, h1, h2⟩ := findSync_sound hsync
  have hl := thirdFrame_length hw ht ho
  have hb : byteAt (thirdFrame s.win o tail) 0 = marker := by rw [byteAt_thirdFrame hw ho, h2]
  unfold decodeThree
  rw [decodeBuf_good (by omega) h0]
  by_cases c0 : s.packetsParsed + 1 < 2 ^ s.cfg.ctrW ∧ s.bytesParsed + 188 < 2 ^ s.cfg.ctrW
  · rw [countPacket, if_pos c0]
    simp only [andThen_next]
    rw [decodeBuf_good (by omega) h1]
    by_cases c1 : s.packetsParsed + 1 + 1 < 2 ^ s.cfg.ctrW ∧ s.bytesParsed + 188 + 188 < 2 ^ s.cfg.ctrW
    · simp only [countPacket, if_pos c1, andThen_next]
      rw [decodeBuf_good (by omega) hb]
      by_cases c2 : s.packetsParsed + 1 + 1 + 1 < 2 ^ s.cfg.ctrW ∧ s.bytesParsed + 188 + 188 + 188 < 2 ^ s.cfg.ctrW
      · simp only [countPacket, if_pos c2, andThen_next]
        rfl
      · simp only [countPacket, if_neg c2, andThen_refused]
    · simp only [countPacket, if_neg c1, andThen_refused]
      rw [if_neg (by omega)]
  · rw [countPacket, if_neg c0]
    simp only [andThen_refused]
    rw [if_neg (by omega)]

/-- The state after reads of `m` bytes in all, WIN holding `w`. -/
def afterReads (m : Nat) (w : List Byte) (s : State) : State :=
  { s with bytesRead := s.bytesRead + m, src := s.src.advance m, win := w }

/-- Everything SYNCHRONIZE can do when it answers: it ends with one of three kinds, having read and perhaps filled WIN, a
short read leaving the source exhausted; or it yields the three packets at the offset the search found. -/
theorem synchronize_cases {s t : State} {r : SyncResult} (h : synchronize s = .next (r, t)) :
    (∃ m w e, r = .err e ∧ t = afterReads m w s ∧ s.bytesRead + m < 2 ^ s.cfg.ctrW ∧ (w = s.win ∨ w.length = 564) ∧
      (e = .noMarkerPresent ∨ (e = .streamTruncated ∨ e = .endOfStream) ∧ (s.src.advance m).bytes = [] ∧
        (s.src.advance m).after = .ended)) ∨
    (∃ w o tail, w.length = 564 ∧ tail.length = o ∧ findSync w = some o ∧ r = threePackets w o tail ∧
      t = afterThree o tail (afterReads (564 + o) w s) ∧ s.bytesRead + (564 + o) < 2 ^ s.cfg.ctrW) := by
  have short : ∀ {n : Nat} {src : Source} {bytes : List Byte}, src.take n = some bytes → bytes.length < n →
      (src.advance bytes.length).bytes = [] ∧ (src.advance bytes.length).after = .ended := by
    intro n src bytes hb hlt
    obtain ⟨h1, h2⟩ := Source.take_short hb hlt
    simp [Source.advance, h1, h2]
  unfold synchronize at h
  obtain ⟨⟨bytes, u⟩, hread, h⟩ := andThen_eq_next.1 h
  obtain ⟨htake, hroom, rfl⟩ := srcReadFull_next.1 hread
  have hle := Source.take_length_le htake
  simp only at h
  split at h
  · rename_i hz
    cases h
    exact .inl ⟨bytes.length, s.win, _, rfl, rfl, hroom, .inl rfl, .inr ⟨.inr rfl, short htake (by omega)⟩⟩
  split at h
  · rename_i hlt
    cases h
    exact .inl ⟨bytes.length, s.win, _, rfl, rfl, hroom, .inl rfl, .inr ⟨.inl rfl, short htake hlt⟩⟩
  have hw : bytes.length = 564 := by omega
  unfold syncWindow at h
  simp only at h
  split at h
  · cases h
    exact .inl ⟨bytes.length, bytes, _, rfl, rfl, hroom, .inr hw, .inl rfl⟩
  rename_i o ho
  have hlt := (findSync_sound ho).1
  unfold syncFrom at h
  obtain ⟨⟨tail, v⟩, htail, h⟩ := andThen_eq_next.1 h
  unfold readTail at htail
  by_cases h0 : o = 0
  · subst h0
    cases htail
    simp only [List.length_nil, Nat.lt_irrefl, if_false] at h
    rw [decodeThree_eq (o := 0) (tail := []) hw rfl ho] at h
    split at h <;> cases h
    refine .inr ⟨bytes, 0, [], hw, rfl, ho, rfl, ?_, by omega⟩
    simp [afterThree, afterReads, hw]
  · rw [if_neg h0] at htail
    obtain ⟨ht2, hroom2, rfl⟩ := srcReadFull_next.1 htail
    simp only at ht2 hroom2
    have hle2 := Source.take_length_le ht2
    simp only at h
    split at h
    · rename_i hshort
      cases h
      refine .inl ⟨bytes.length + tail.length, bytes, _, rfl, ?_, by omega, .inr hw, .inr ⟨.inl rfl, ?_⟩⟩
      · simp [afterReads, Source.advance_advance, Nat.add_assoc]
      · rw [← Source.advance_advance]; exact short ht2 hshort
    · have htl : tail.length = o := by omega
      rw [decodeThree_eq hw htl ho] at h
      split at h <;> cases h
      refine .inr ⟨bytes, o, tail, hw, htl, ho, rfl, ?_, by omega⟩
      simp [afterThree, afterReads, Source.advance_advance, Nat.add_assoc, hw, htl]

/-- SYNCHRONIZE on a full window with a candidate and its whole tail listed. -/
theorem synchronize_ok {s : State} {w tail rest : List Byte} {after : SourceEnd} {o : Nat}
    (hsrc : s.src = ⟨w ++ tail ++ rest, after⟩) (hw : w.length = 564) (ht : tail.length = o) (ho : findSync w = some o)
    (hr : s.bytesRead + 564 + o < 2 ^ s.cfg.ctrW) (hb : s.bytesParsed + 564 < 2 ^ s.cfg.ctrW)
    (hp : s.packetsParsed + 3 < 2 ^ s.cfg.ctrW) :
    synchronize s = .next (threePackets w o tail, { s with
      pstate := .sync, bytesRead := s.bytesRead + 564 + o, bytesParsed := s.bytesParsed + 564,
      packetsParsed := s.packetsParsed + 3, win := w, frm := thirdFrame w o tail, src := ⟨rest, after⟩ }) := by
  have h1 := srcReadFull_append (s := s) (pre := w) (post := tail ++ rest) (after := after)
    (by rw [hsrc, List.append_assoc]) (by omega)
  rw [hw] at h1
  simp only [synchronize, h1, andThen_next, hw, Nat.lt_irrefl, if_false, syncWindow, ho, syncFrom, readTail]
  rw [if_neg (by decide)]
  by_cases h0 : o = 0
  · subst h0
    obtain rfl := List.length_eq_zero_iff.1 ht
    simp only [if_true, andThen_next, List.length_nil, Nat.lt_irrefl, if_false]
    rw [decodeThree_eq (o := 0) (tail := []) hw rfl ho, if_pos ⟨hp, hb⟩]
    simp [afterThree]
  · have h2 := srcReadFull_append (s := { s with bytesRead := s.bytesRead + 564, win := w, src := ⟨tail ++ rest, after⟩ })
      (pre := tail) (post := rest) (after := after) rfl (by simpa [ht] using hr)
    rw [ht] at h2
    simp only [if_neg h0, h2, andThen_next, ht, Nat.lt_irrefl, if_false]
    rw [decodeThree_eq hw ht ho, if_pos ⟨hp, hb⟩]
    rfl

end Sys2Proof.Machine
end

