-- ==== Sys2Proof/Laws/Fill.lean ====
section
/-! SUPPORT. Everything FILL's step 2 can do, and what it does on good frames (40_fill R114 to R117). -/

namespace Sys2Proof.Machine

/-- `s` after reads of `m` bytes in all, of which the packets `ps` went to the slots from `n` on, FRM holding `f`. -/
def afterLoop (n m : Nat) (ps : List Packet) (f : List Byte) (s : State) : State :=
  { s with bytesRead := s.bytesRead + m, bytesParsed := s.bytesParsed + 188 * ps.length,
           packetsParsed := s.packetsParsed + ps.length, frm := f, slots := slotWriteFrom n ps s.slots,
           src := s.src.advance m }

/-- How step 2 can end, `n` packets having been produced before it and `j` in it, with `left` slots free: the control
state, the kind and the count it finishes with. -/
inductive LoopEnd (left n j : Nat) (src : Source) (p : PState) : PState → ErrKind → Prop
  | full (h : j = left) : LoopEnd left n j src p p .none
  | dry (hj : j < left) (hn : 1 ≤ n + j) (hb : src.bytes = []) (ha : src.after = .ended) : LoopEnd left n j src p p .none
  | nothing (hj : j < left) (hn : n + j = 0) (hb : src.bytes = []) (ha : src.after = .ended) :
      LoopEnd left n j src p .exhausted .endOfStream
  | truncated (hj : j < left) (hb : src.bytes = []) (ha : src.after = .ended) :
      LoopEnd left n j src p .faulted .streamTruncated
  | badMarker (hj : j < left) : LoopEnd left n j src p .faulted .noMarkerPresent

theorem take_short_advance {n : Nat} {src : Source} {bytes : List Byte} (hb : src.take n = some bytes)
    (hlt : bytes.length < n) : (src.advance bytes.length).bytes = [] ∧ (src.advance bytes.length).after = .ended := by
  obtain ⟨h1, h2⟩ := Source.take_short hb hlt
  simp [Source.advance, h1, h2]

/-- Everything step 2 can do when it answers. -/
theorem fillLoop_cases {left n : Nat} {s t : State} (h : fillLoop left n s = .next t) :
    ∃ m ps f q e, LoopEnd left n ps.length (s.src.advance m) s.pstate q e ∧
      t = finish (n + ps.length) e { afterLoop n m ps f s with pstate := q } ∧
      188 * ps.length ≤ m ∧ (m = 0 ∨ s.bytesRead + m < 2 ^ s.cfg.ctrW) ∧ (f = s.frm ∨ f.length = 188) ∧
      ∀ p ∈ ps, p.wf = true := by
  induction left generalizing n s with
  | zero =>
    cases h
    exact ⟨0, [], s.frm, s.pstate, .none, .full rfl, by simp [afterLoop, slotWriteFrom], by simp, .inl rfl, .inl rfl,
      by simp⟩
  | succ left ih =>
    rw [fillLoop] at h
    obtain ⟨⟨bytes, u⟩, hread, h⟩ := andThen_eq_next.1 h
    obtain ⟨htake, hroom, rfl⟩ := srcReadFull_next.1 hread
    have hle := Source.take_length_le htake
    simp only at h
    split at h
    · rename_i hz
      obtain ⟨hb, ha⟩ := take_short_advance htake (by omega)
      split at h
      · rename_i hn
        cases h
        exact ⟨bytes.length, [], s.frm, s.pstate, .none, .dry (by simp) (by simpa using hn) hb ha,
          by simp [afterLoop, slotWriteFrom], by simp, .inr hroom, .inl rfl, by simp⟩
      · rename_i hn
        cases h
        obtain rfl : n = 0 := by omega
        exact ⟨bytes.length, [], s.frm, .exhausted, .endOfStream, .nothing (by simp) (by simp) hb ha,
          by simp [afterLoop, slotWriteFrom], by simp, .inr hroom, .inl rfl, by simp⟩
    split at h
    · rename_i hlt
      obtain ⟨hb, ha⟩ := take_short_advance htake hlt
      cases h
      exact ⟨bytes.length, [], s.frm, .faulted, .streamTruncated, .truncated (by simp) hb ha,
        by simp [afterLoop, slotWriteFrom], by simp, .inr hroom, .inl rfl, by simp⟩
    have hlen : bytes.length = 188 := by omega
    obtain ⟨⟨r, v⟩, hdec, h⟩ := andThen_eq_next.1 h
    rcases decodeBuf_next.1 hdec with ⟨hs, -⟩ | ⟨-, -, rfl, rfl⟩ | ⟨-, -, -, -, rfl, rfl⟩
    · omega
    · cases h
      exact ⟨bytes.length, [], bytes, .faulted, .noMarkerPresent, .badMarker (by simp),
        by simp [afterLoop, slotWriteFrom], by simp, .inr hroom, .inr hlen, by simp⟩
    · obtain ⟨m, ps, f, q, e, hend, rfl, hm, hr, hf, hps⟩ := ih h
      simp only [State.setSlot] at hend hr hf
      refine ⟨bytes.length + m, packetAt bytes 0 :: ps, f, q, e, ?_, ?_, ?_, ?_, ?_, ?_⟩
      · rw [← Source.advance_advance, List.length_cons]
        cases hend with
        | full h => exact .full (by omega)
        | dry hj hn hb ha => exact .dry (by omega) (by omega) hb ha
        | nothing hj hn hb ha => omega
        | truncated hj hb ha => exact .truncated (by omega) hb ha
        | badMarker hj => exact .badMarker (by omega)
      · simp [afterLoop, slotWriteFrom, Source.advance_advance, Nat.add_assoc, Nat.add_comm 1, Nat.mul_add,
          Nat.add_comm 188]
      · simp; omega
      · right
        obtain rfl | hr := hr
        · simpa using hroom
        · omega
      · obtain rfl | hf := hf
        · exact .inr hlen
        · exact .inr hf
      · intro p hp
        rw [List.mem_cons] at hp
        obtain rfl | hp := hp
        · exact packetAt_wf (by omega)
        · exact hps p hp

/-- Step 2 runs through good frames: each is read, counted and written to the next slot. -/
theorem fillLoop_frames {left n : Nat} {s : State} {fs : List (List Byte)} {more : List Byte} {after : SourceEnd}
    (hsrc : s.src = ⟨fs.flatten ++ more, after⟩) (hgood : ∀ f ∈ fs, f.length = 188 ∧ byteAt f 0 = marker)
    (hleft : fs.length ≤ left) (hr : s.bytesRead + 188 * fs.length < 2 ^ s.cfg.ctrW)
    (hb : s.bytesParsed + 188 * fs.length < 2 ^ s.cfg.ctrW) (hp : s.packetsParsed + fs.length < 2 ^ s.cfg.ctrW) :
    fillLoop left n s = fillLoop (left - fs.length) (n + fs.length) { s with
      bytesRead := s.bytesRead + 188 * fs.length, bytesParsed := s.bytesParsed + 188 * fs.length,
      packetsParsed := s.packetsParsed + fs.length, frm := fs.getLastD s.frm,
      slots := slotWriteFrom n (fs.map (packetAt · 0)) s.slots, src := ⟨more, after⟩ } := by
  induction fs generalizing left n s with
  | nil => simp_all [slotWriteFrom]; rw [← hsrc]
  | cons f fs ih =>
    obtain ⟨hlen, hm⟩ := hgood f (by simp)
    rw [List.length_cons] at hleft hr hb hp
    obtain ⟨left, rfl⟩ : ∃ k, left = k + 1 := ⟨left - 1, by omega⟩
    have h1 := srcReadFull_append (s := s) (pre := f) (post := fs.flatten ++ more) (after := after)
      (by simpa using hsrc) (by omega)
    rw [hlen] at h1
    rw [fillLoop, h1]
    simp only [andThen_next, hlen, Nat.lt_irrefl, if_false]
    rw [if_neg (by decide), decodeBuf_ok (by omega) hm (by simp only; omega) (by simp only; omega)]
    simp only [andThen_next]
    rw [ih (s := State.setSlot n (packetAt f 0) _) rfl (fun g hg => hgood g (by simp [hg])) (by omega)
      (by simp only [State.setSlot]; omega) (by simp only [State.setSlot]; omega) (by simp only [State.setSlot]; omega)]
    rw [show left + 1 - (f :: fs).length = left - fs.length by simp,
      show n + (f :: fs).length = n + 1 + fs.length by simp; omega, List.getLastD_cons]
    simp [State.setSlot, slotWriteFrom, Nat.mul_add, Nat.add_assoc, Nat.add_comm 1, Nat.add_comm 188]

/-- FILL's dispatch says what an answer came from (40_fill R112, R113). -/
theorem fillAccepted_cases {cap : Nat} {s t : State} (h : fillAccepted cap s = .next t) :
    (s.pstate = .exhausted ∧ t = finish 0 .endOfStream s) ∨
    (s.pstate = .faulted ∧ t = finish 0 s.resErr s) ∨
    (s.pstate = .sync ∧ fillLoop cap 0 s = .next t) ∨
    (s.pstate = .unsync ∧ ∃ u e, synchronize s = .next (.err e, u) ∧ t = finish 0 e u) ∨
    (s.pstate = .unsync ∧ ∃ u p0 p1 p2, synchronize s = .next (.ok p0 p1 p2, u) ∧
      fillLoop (cap - 3) 3 (((u.setSlot 0 p0).setSlot 1 p1).setSlot 2 p2) = .next t) := by
  unfold fillAccepted at h
  split at h
  · cases h; exact .inl ⟨‹_›, rfl⟩
  · cases h; exact .inr (.inl ⟨‹_›, rfl⟩)
  · exact .inr (.inr (.inl ⟨‹_›, h⟩))
  · unfold fillUnsync at h
    obtain ⟨⟨r, u⟩, hsync, h⟩ := andThen_eq_next.1 h
    cases r with
    | err e => cases h; exact .inr (.inr (.inr (.inl ⟨‹_›, u, e, hsync, rfl⟩)))
    | ok p0 p1 p2 => exact .inr (.inr (.inr (.inr ⟨‹_›, u, p0, p1, p2, hsync, h⟩)))

/-- FILL answers only within its contract (40_fill R111). -/
theorem execFill_next {cap : BitVec 16} {s t : State} :
    execFill cap s = .next t ↔ FillAllowed cap.toNat s ∧ fillAccepted cap.toNat s = .next t := by
  unfold execFill
  split
  · exact ⟨fun h => ⟨‹_›, h⟩, fun h => h.2⟩
  · exact ⟨fun h => (by cases h), fun h => absurd h.1 ‹_›⟩

/-- A FILL within its contract whose source lists what brings it to step 2 and good frames after it: it goes on in step 2
with the frames delivered (40_fill R112 to R114). -/
theorem execFill_frames {cap : BitVec 16} {s : State} {head : List Byte} {ps : List Packet} {w f : List Byte}
    {fs : List (List Byte)} {more : List Byte} {after : SourceEnd} (hent : s.EntersLoop head ps w f)
    (hcap : 1 ≤ cap.toNat) (hmax : cap.toNat ≤ s.cfg.slotsMax) (hle : ps.length + fs.length ≤ cap.toNat)
    (hgood : ∀ f ∈ fs, GoodFrame f) (hsrc : s.src = ⟨head ++ (fs.flatten ++ more), after⟩)
    (hroom : s.Room (head.length + 188 * fs.length) (ps.length + fs.length)) :
    execFill cap s = fillLoop (cap.toNat - (ps.length + fs.length)) (ps.length + fs.length) { s with
      pstate := .sync, bytesRead := s.bytesRead + head.length + 188 * fs.length,
      bytesParsed := s.bytesParsed + 188 * (ps.length + fs.length),
      packetsParsed := s.packetsParsed + (ps.length + fs.length), win := w, frm := fs.getLastD f,
      slots := slotWriteFrom 0 (ps ++ fs.map (packetAt · 0)) s.slots, src := ⟨more, after⟩ } := by
  obtain ⟨hr, hb, hp⟩ := hroom
  obtain ⟨hs, rfl, rfl, rfl, rfl⟩ | ⟨hu, o, tail, rfl, hw, ht, ho, hm, hlow, rfl, rfl⟩ := hent
  · simp only [List.length_nil, List.nil_append, Nat.zero_add, Nat.add_zero] at hsrc hr hb hp hle ⊢
    rw [execFill, if_pos ⟨hcap, hmax, by simp [hs]⟩]
    simp only [fillAccepted, hs]
    rw [fillLoop_frames hsrc hgood hle (by omega) (by omega) (by omega)]
    simp [hs]
  · simp only [List.length_append, List.length_cons, List.length_nil, hw, ht] at hr hb hp hle ⊢
    have hf := findSync_of_lowest ho hm hlow
    rw [execFill, if_pos ⟨hcap, hmax, by omega⟩]
    simp only [fillAccepted, hu, fillUnsync]
    rw [synchronize_ok (by simpa using hsrc) hw ht hf (by omega) (by omega) (by omega)]
    simp only [andThen_next, threePackets]
    rw [fillLoop_frames (fs := fs) (more := more) (after := after) (by simp) hgood (by omega) (by simp; omega)
      (by simp; omega) (by simp; omega), Nat.sub_sub]
    simp [slotWriteFrom, thirdFrame, State.setSlot, Nat.mul_add, Nat.add_assoc]

/-- Step 2 that fills its slots is the first part of every longer step 2: the longer one goes on where it finished. -/
theorem fillLoop_extends {a n : Nat} {s t : State} (h : fillLoop a n s = .next t) (he : t.resErr = .none)
    (hc : t.resCount = BitVec.ofNat 16 (n + a)) (hlt : n + a < 65536) :
    ∃ v, t = finish (n + a) .none v ∧ v.pstate = s.pstate ∧ ∀ b, fillLoop (a + b) n s = fillLoop b (n + a) v := by
  induction a generalizing n s with
  | zero =>
    cases h
    exact ⟨s, rfl, rfl, fun b => by rw [Nat.zero_add, Nat.add_zero]⟩
  | succ a ih =>
    rw [fillLoop] at h
    obtain ⟨⟨bytes, u⟩, hu, h⟩ := andThen_eq_next.1 h
    obtain ⟨-, -, rfl⟩ := srcReadFull_next.1 hu
    simp only at h
    split at h
    · split at h
      · cases h
        rw [finish_resCount] at hc
        have := congrArg BitVec.toNat hc
        simp only [BitVec.toNat_ofNat] at this
        omega
      · cases h; cases he
    rename_i hz
    split at h
    · cases h; cases he
    rename_i hl
    obtain ⟨⟨r, v⟩, hv, h⟩ := andThen_eq_next.1 h
    cases r with
    | err e =>
      cases h
      rw [finish_resErr] at he
      rcases decodeBuf_next.1 hv with ⟨-, hr, -⟩ | ⟨-, -, hr, -⟩ | ⟨-, -, -, -, hr, -⟩ <;> cases hr <;> cases he
    | ok p =>
      have hps : v.pstate = s.pstate := by
        rcases decodeBuf_next.1 hv with ⟨-, hr, -⟩ | ⟨-, -, hr, -⟩ | ⟨-, -, -, -, -, rfl⟩
        · cases hr
        · cases hr
        · rfl
      obtain ⟨w, rfl, hw, hx⟩ := ih h (by rw [hc]; congr 1; omega) (by omega)
      refine ⟨w, by rw [Nat.add_assoc n 1 a, Nat.add_comm 1 a], hw.trans hps, fun b => ?_⟩
      rw [Nat.add_right_comm, fillLoop, hu, andThen_next]
      simp only
      rw [if_neg hz, if_neg hl, hv, andThen_next]
      simp only
      rw [hx b, Nat.add_assoc n 1 a, Nat.add_comm 1 a]

/-- A FILL that fills its slots is the first part of every longer FILL, from SYNC and from UNSYNC (40_fill R124 (c)). -/
theorem execFill_extends {a : BitVec 16} {s t : State} (h : execFill a s = .next t) (he : t.resErr = .none)
    (hc : t.resCount = a) :
    ∃ v, t = finish a.toNat .none v ∧ v.pstate = .sync ∧
      ∀ c : BitVec 16, a.toNat ≤ c.toNat → c.toNat ≤ s.cfg.slotsMax →
        execFill c s = fillLoop (c.toNat - a.toNat) a.toNat v := by
  obtain ⟨⟨h1, hmax, h3⟩, hf⟩ := execFill_next.1 h
  have hlt := a.isLt
  rcases fillAccepted_cases hf with ⟨hp, rfl⟩ | ⟨hp, rfl⟩ | ⟨hp, hl⟩ | ⟨hp, u, e, hs, rfl⟩ | ⟨hp, u, p0, p1, p2, hs, hl⟩
  · cases he
  · rw [finish_resCount] at hc; subst hc; simp at h1
  · obtain ⟨v, ht, hv, hx⟩ := fillLoop_extends hl he (by rw [hc]; simp) (by omega)
    rw [Nat.zero_add] at ht hx
    refine ⟨v, ht, hv.trans hp, fun c hac hcm => ?_⟩
    rw [execFill, if_pos ⟨by omega, hcm, by simp [hp]⟩]
    simp only [fillAccepted, hp]
    rw [← hx, show a.toNat + (c.toNat - a.toNat) = c.toNat by omega]
  · rw [finish_resCount] at hc; subst hc; simp at h1
  · have h3 := h3 hp
    obtain ⟨v, ht, hv, hx⟩ := fillLoop_extends hl he (by rw [hc, show 3 + (a.toNat - 3) = a.toNat by omega]; simp) (by omega)
    rw [show 3 + (a.toNat - 3) = a.toNat by omega] at ht hx
    have hu : u.pstate = .sync := by
      rcases synchronize_cases hs with ⟨m, w, e, he, -⟩ | ⟨w, o, tail, -, -, -, -, rfl, -⟩
      · cases he
      · rfl
    refine ⟨v, ht, hv.trans hu, fun c hac hcm => ?_⟩
    rw [execFill, if_pos ⟨by omega, hcm, by omega⟩]
    simp only [fillAccepted, hp, fillUnsync, hs, andThen_next]
    rw [← hx, show a.toNat - 3 + (c.toNat - a.toNat) = c.toNat - 3 by omega]

end Sys2Proof.Machine
end

