-- ==== Sys2Proof/Laws/PerInstr.lean ====
section
/-! SUPPORT. Per instruction: its encoding is a word of its own row of the opcode table (spec/opcode_table.json, match and
mask). -/

namespace Sys2Proof.Laws.Encoding

/-- The bits the opcode table gives the row of `i`, where `i` is well-formed, stand in its encoding: the masked command
word, the whole pattern, or the first byte of a frame of 188 bytes. -/
def Statement (i : Instr) : Prop :=
  i.wf = true →
  match i with
  | .decode pkt => ∃ rest, Sys2Proof.encode (.decode pkt) = .frame (0x47#8 :: rest) ∧ rest.length = 187
  | .synchronize => Sys2Proof.encode .synchronize = .pattern 0x47#8 0x47#8 0x47#8
  | .fill cap => ∃ w, Sys2Proof.encode (.fill cap) = .command w ∧ w &&& 0xFFFF0000#32 = 0x10000000#32
  | .rd reg => ∃ w, Sys2Proof.encode (.rd reg) = .command w ∧ w &&& 0xFFFF0000#32 = 0x20000000#32
  | .reset => ∃ w, Sys2Proof.encode .reset = .command w ∧ w &&& 0xFFFFFFFF#32 = 0xF0000000#32

theorem decode (pkt : Packet) : Statement (.decode pkt) := by
  intro h
  have h : pkt.payload.length = 185 := by simpa [Instr.wf, Packet.wf] using h
  exact ⟨_, rfl, by simp [h]⟩

theorem synchronize : Statement .synchronize := fun _ => rfl

theorem fill (cap : BitVec 16) : Statement (.fill cap) := by
  refine fun _ => ⟨_, rfl, ?_⟩
  ext k hk
  simp only [BitVec.getElem_and, BitVec.getElem_append]
  interval_cases k <;> simp

theorem rd (reg : Csr) : Statement (.rd reg) := by
  refine fun _ => ⟨_, rfl, ?_⟩
  cases reg <;> decide

theorem reset : Statement .reset := fun _ => ⟨_, rfl, by decide⟩

end Sys2Proof.Laws.Encoding
end

