-- ==== Sys2Proof/Laws/Step.lean ====
section
/-! SUPPORT. Everything one step can do, down to the instruction it runs. -/

namespace Sys2Proof.Machine

/-- A step that answers was idle, or ran the instruction its oldest request decodes to, or ended a rejected frame. -/
theorem step_cases {s t : State} (h : step s = .next t) :
    (s.pending = [] ∧ t = s) ∨
    (∃ r rest i, s.pending = r :: rest ∧ decode r = .instr i ∧ exec i { s with pending := rest } = .next t) ∨
    (∃ bytes rest e, s.pending = .frame bytes :: rest ∧ t = { s with pending := rest, answer := .decoded (.err e) }) := by
  unfold step takeRequest at h
  split at h
  · cases h; exact .inl ⟨‹_›, rfl⟩
  rename_i r rest hp
  unfold runRequest at h
  split at h
  · exact .inr (.inl ⟨r, rest, _, hp, ‹_›, h⟩)
  · rename_i why hr
    cases r with
    | command w =>
      simp only [decode, decodeCommand] at hr
      repeat' split at hr
      all_goals cases hr
      all_goals cases h
    | frame bytes =>
      simp only [decode, decodeFrame] at hr
      repeat' split at hr
      all_goals cases hr
      all_goals cases h; exact .inr (.inr ⟨bytes, rest, _, hp, rfl⟩)
    | pattern b0 b1 b2 =>
      simp only [decode, decodePattern] at hr
      split at hr <;> cases hr
      cases h

/-- One word alone is RESET (30_encoding R91). -/
theorem decode_reset {r : Request} (h : decode r = .instr .reset) : r = .command 0xF0000000#32 := by
  cases r with
  | command w =>
    have hw := command_fields w
    simp only [decode, decodeCommand] at h
    repeat' split at h
    all_goals cases h
    rename_i hz _ _ ho ha
    rw [Request.command.injEq]
    apply BitVec.eq_of_toNat_eq
    rw [hw, Classical.not_not.1 hz, ho, ha]
    rfl
  | frame bytes =>
    simp only [decode, decodeFrame] at h
    repeat' split at h
    all_goals cases h
  | pattern b0 b1 b2 =>
    simp only [decode, decodePattern] at h
    split at h <;> cases h

/-- A host command is FILL, RD or RESET: SYNCHRONIZE and DECODE have no command (43_host_access R165). -/
theorem decode_isCommand {r : Request} {i : Instr} (hr : r.isCommand = true) (h : decode r = .instr i) :
    (∃ cap, i = .fill cap) ∨ (∃ reg, i = .rd reg) ∨ i = .reset := by
  cases r with
  | command w =>
    simp only [decode, decodeCommand] at h
    repeat' split at h
    all_goals cases h
    all_goals simp
  | frame bytes => cases hr
  | pattern b0 b1 b2 => cases hr

/-- DECODE run alone counts one packet and answers (42_decode R156). -/
theorem execDecode_cases {pkt : Packet} {s t : State} (h : execDecode pkt s = .next t) :
    (∃ e, t = { s with answer := .decoded (.err e) }) ∨
    (∃ p, t = { s with packetsParsed := s.packetsParsed + 1, bytesParsed := s.bytesParsed + 188,
                       answer := .decoded (.ok p) }) := by
  obtain ⟨⟨r, u⟩, hd, h⟩ := andThen_eq_next.1 h
  cases h
  rcases decodeBuf_next.1 hd with ⟨-, rfl, rfl⟩ | ⟨-, -, rfl, rfl⟩ | ⟨-, -, -, -, rfl, rfl⟩
  · exact .inl ⟨_, rfl⟩
  · exact .inl ⟨_, rfl⟩
  · exact .inr ⟨_, rfl⟩

/-- SYNCHRONIZE run alone is SYNCHRONIZE with its result in the answer. -/
theorem execSynchronize_next {s t : State} :
    execSynchronize s = .next t ↔
      s.pstate = .unsync ∧ ∃ r u, synchronize s = .next (r, u) ∧ t = { u with answer := .synced r } := by
  unfold execSynchronize
  split
  · rw [andThen_eq_next]
    exact ⟨fun ⟨⟨r, u⟩, hs, h⟩ => ⟨‹_›, r, u, hs, by cases h; rfl⟩, fun ⟨_, r, u, hs, h⟩ => ⟨(r, u), hs, by rw [h]⟩⟩
  · exact ⟨fun h => (by cases h), fun h => absurd h.1 ‹_›⟩

end Sys2Proof.Machine
end

