-- ==== Sys2Proof/Tests/Slice0.lean ====
section
/-! SUPPORT. The model's own tests (expected results from spec/95_test_vectors.md and the spec's worked examples, none from
the model), and for every statement with hypotheses a witness that they can be met together. -/

namespace Sys2Proof.Tests
open Sys2Proof Sys2Proof.Machine

-- The theorems below are checked one after another, so that their evaluations do not fill the memory together.
set_option Elab.async false

/-! ## Small streams and states -/

/-- `RAW(v × n)` (30_encoding R96). -/
def raw (n : Nat) (v : Byte) : List Byte := List.replicate n v

/-- A frame with header bytes 47 `b1` `b2` and payload 185 × `v` (30_encoding R96). -/
def frame (b1 b2 v : Byte) : List Byte := 0x47#8 :: b1 :: b2 :: raw 185 v

/-- `PKT(000, k, 0x00)` for small `k` (95_test_vectors, `Pk`). -/
def pk (k : Byte) : List Byte := frame 0x00#8 k 0x00#8

/-- `BADPKT(0x48, 0x00)` (30_encoding R96). -/
def badFrame : List Byte := 0x48#8 :: raw 187 0x00#8

/-- After reset, on a source that holds `bytes` and then ends. -/
def onSource (bytes : List Byte) : State := { State.reset with src := ⟨bytes, .ended⟩ }

/-- The same with the control state `p`. -/
def inState (p : PState) (bytes : List Byte) : State := { onSource bytes with pstate := p }

/-- After reset with one request pending. -/
def asked (r : Request) : State := { State.reset with pending := [r] }

/-- `o` answers a next state of which `p` holds. -/
def nextWith (o : Outcome State) (p : State → Bool) : Bool :=
  match o with
  | .next t => p t
  | .fault _ => false
  | .refused _ => false

theorem nextWith_exists {o : Outcome State} {p : State → Bool} (h : nextWith o p = true) : ∃ t, o = .next t ∧ p t = true := by
  cases o with
  | next t => exact ⟨t, rfl, h⟩
  | fault f => cases h
  | refused r => cases h

/-- PSTATE, the result pair and the counters, as 95_test_vectors lists them. -/
def outcome (t : State) : PState × BitVec 16 × ErrKind × Nat × Nat × Nat :=
  (t.pstate, t.resCount, t.resErr, t.bytesRead, t.bytesParsed, t.packetsParsed)

/-! ## WellFormed -/

theorem test_wellformed_refuses_short_payload : (Instr.decode ⟨true, true, true, 5#13, raw 184 0#8⟩).wf = false := by decide +kernel

theorem test_wellformed_refuses_long_payload : (Instr.decode ⟨true, true, true, 5#13, raw 186 0#8⟩).wf = false := by decide +kernel

theorem test_wellformed_takes_whole_payload : (Instr.decode ⟨true, true, true, 5#13, raw 185 0#8⟩).wf = true := by decide +kernel

/-! ## Words written out from the spec's encodings -/

/-- FILL: op 0001, zero 0000 0000 0000, arg 0000 0000 0000 1000 (30_encoding R90, R91; V-H2). -/
theorem test_word_fill : decode (.command 0b00010000000000000000000000001000#32) = .instr (.fill 8#16) := by decide

/-- RD: op 0010, arg 0000 0000 0000 0101, register 5 (30_encoding R91, R93; V-H7). -/
theorem test_word_rd : decode (.command 0b00100000000000000000000000000101#32) = .instr (.rd .errBytesRead) := by decide

/-- All nine register numbers (30_encoding R93). -/
theorem test_register_numbers :
    (List.range 10).map csrOfNumber = [some .status, some .result, some .bytesRead, some .bytesParsed, some .packetsParsed,
      some .errBytesRead, some .errBytesParsed, some .errPackets, some .cap, none] := by decide

/-- RESET: op 1111, all else 0 (30_encoding R91; V-H8). -/
theorem test_word_reset : decode (.command 0b11110000000000000000000000000000#32) = .instr .reset := by decide

/-- DECODE: marker 01000111, a b c = 1 0 0, pid 1 1111 1111 1111 (30_encoding R82; PKT(100, 0x1FFF, 0xCC)). -/
theorem test_word_decode : decode (.frame (0b01000111#8 :: 0b10011111#8 :: 0b11111111#8 :: raw 185 0xCC#8)) =
    .instr (.decode ⟨true, false, false, 0x1FFF#13, raw 185 0xCC#8⟩) := by decide +kernel

/-- SYNCHRONIZE: three markers (30_encoding R87). -/
theorem test_word_synchronize : decode (.pattern 0b01000111#8 0b01000111#8 0b01000111#8) = .instr .synchronize := by decide

/-- V-H9: reserved words. -/
theorem test_words_reserved :
    [0x00000000#32, 0x30000000#32, 0x10010003#32, 0xF0000001#32, 0x20000009#32].map (fun w => decode (.command w)) =
    [.reject (.reservedCommand 0x00000000#32), .reject (.reservedCommand 0x30000000#32), .reject (.reservedCommand 0x10010003#32),
      .reject (.reservedCommand 0xF0000001#32), .reject (.reservedCommand 0x20000009#32)] := by decide

/-- 95_test_vectors, Header encodings: the header bytes of PKT(010, 0x0011, _) and PKT(001, 0x0012, _). -/
theorem test_encode_headers :
    (encodeFrame ⟨false, true, false, 0x0011#13, raw 185 0#8⟩).take 3 = [0x47#8, 0x40#8, 0x11#8] ∧
    (encodeFrame ⟨false, false, true, 0x0012#13, raw 185 0#8⟩).take 3 = [0x47#8, 0x20#8, 0x12#8] := by decide

/-- The rows of the opcode table, as table words. -/
theorem test_table_words :
    decodeTableWord 24 0x474011 = some (.decode ⟨false, true, false, 0x0011#13, raw 185 0#8⟩) ∧
    decodeTableWord 24 0x474747 = some .synchronize ∧ decodeTableWord 24 0x464011 = none ∧
    decodeTableWord 32 0x10000003 = some (.fill 3#16) ∧ decodeTableWord 32 0xF0000000 = some .reset ∧
    decodeTableWord 32 0x00000000 = none := by decide +kernel

/-! ## DECODE -/

/-- V-D2, V-D3, V-D4, V-D7, V-D9, V-D11: (flags[0], flags[1], flags[2], pid) of header bytes 1 and 2. -/
theorem test_header_fields :
    [(0xFF#8, 0xFF#8), (0xE0#8, 0x00#8), (0x1F#8, 0xFF#8), (0xA1#8, 0x23#8), (0x20#8, 0x01#8), (0x1F#8, 0x00#8)].map
      (fun (b : Byte × Byte) => (headerFlag0 b.1, headerFlag1 b.1, headerFlag2 b.1, headerPid b.1 b.2)) =
    [(true, true, true, 8191#13), (true, true, true, 0#13), (false, false, false, 8191#13), (true, false, true, 291#13),
      (false, false, true, 1#13), (false, false, false, 7936#13)] := by decide

/-- 42_decode R160, V-D19: DECODE as the block takes it in, the counters and the last payload byte. -/
theorem test_decode_counts : nextWith (step (asked (.frame (0x47#8 :: 0x41#8 :: 0x23#8 :: raw 184 0x10#8 ++ [0xC8#8]))))
    (fun t => t.packetsParsed == 1 && t.bytesParsed == 188 && t.bytesRead == 0 &&
      t.answer == .decoded (.ok ⟨false, true, false, 291#13, raw 184 0x10#8 ++ [0xC8#8]⟩)) = true := by decide +kernel

/-- V-D16: of a short buffer with a wrong first byte the length is judged first. -/
theorem test_decode_length_first : nextWith (step (asked (.frame (raw 187 0x00#8))))
    (fun t => t.answer == .decoded (.err .bufferTooSmall) && t.packetsParsed == 0) = true := by decide +kernel

/-! ## SYNCHRONIZE -/

/-- 41_synchronize R143: five garbage bytes. -/
theorem test_synchronize_garbage : nextWith (exec .synchronize (onSource (raw 5 0#8 ++ pk 0#8 ++ pk 1#8 ++ pk 2#8)))
    (fun t => t.pstate == .sync && t.bytesRead == 569 && t.bytesParsed == 564 && t.packetsParsed == 3 &&
      t.answer == .synced (.ok ⟨false, false, false, 0#13, raw 185 0#8⟩ ⟨false, false, false, 1#13, raw 185 0#8⟩
        ⟨false, false, false, 2#13, raw 185 0#8⟩)) = true := by decide +kernel

/-- V-S11: the window is whole, the tail empty. -/
theorem test_synchronize_no_tail :
    nextWith (exec .synchronize (onSource (raw 5 0#8 ++ pk 1#8 ++ pk 2#8 ++ (pk 3#8).take 183)))
      (fun t => t.pstate == .unsync && t.bytesRead == 564 && t.bytesParsed == 0 && t.packetsParsed == 0 &&
        t.answer == .synced (.err .streamTruncated)) = true := by decide +kernel

/-! ## FILL -/

/-- 40_fill R125, V-F6: `fill 8` gives (4, NONE), the first packet in SLOT[0]. -/
theorem test_fill_batch : nextWith (exec (.fill 8#16) (onSource (raw 2 0#8 ++ frame 0x40#8 0x11#8 0xAA#8 ++
      frame 0x01#8 0x00#8 0xBB#8 ++ frame 0x1F#8 0xFF#8 0xFF#8 ++ frame 0x80#8 0x00#8 0xCC#8)))
    (fun t => outcome t == (.sync, 4#16, .none, 754, 752, 4) &&
      slotLookup 0 t.slots == some ⟨false, true, false, 0x0011#13, raw 185 0xAA#8⟩ &&
      slotLookup 3 t.slots == some ⟨true, false, false, 0x0000#13, raw 185 0xCC#8⟩) = true := by decide +kernel

/-- V-F4: the short frame is judged by its length, before its first byte; the error record holds the counters. -/
theorem test_fill_truncated : nextWith (exec (.fill 4#16) (onSource (pk 0#8 ++ pk 1#8 ++ pk 2#8 ++ raw 100 0#8)))
    (fun t => outcome t == (.faulted, 3#16, .streamTruncated, 664, 564, 3) &&
      t.errBytesRead == 664 && t.errBytesParsed == 564 && t.errPackets == 3) = true := by decide +kernel

/-! ## RD and RESET -/

/-- V-H4, V-H5: STATUS in EXHAUSTED, RESULT after (1, NoMarkerPresent). -/
theorem test_rd_packed :
    nextWith (exec (.rd .status) (inState .exhausted [])) (fun t => t.answer == .value 0x6) = true ∧
    nextWith (exec (.rd .result) { State.reset with resCount := 1#16, resErr := .noMarkerPresent })
      (fun t => t.answer == .value 0x20001) = true := by decide +kernel

/-- The instruction of a table word is the next one to run: `rd CAP` (30_encoding R93). -/
theorem test_fetch_word : nextWith (step (State.reset.withFetchWord 32 0x20000008)) (fun t => t.answer == .value 65535) = true := by
  decide +kernel

/-- Program P3, step 5: RESET from FAULTED, the source where it was. -/
theorem test_reset_from_faulted : nextWith (exec .reset { inState .faulted (pk 5#8) with
      bytesRead := 940, bytesParsed := 752, packetsParsed := 4, resErr := .noMarkerPresent, errPackets := 4 })
    (fun t => outcome t == (.unsync, 0#16, .none, 0, 0, 0) && t.errPackets == 0 && t.src == ⟨pk 5#8, .ended⟩) = true := by
  decide +kernel

/-! ## Witnesses: the hypotheses of each statement can be met together, at the ends of their ranges

A statement that is only about every state, or whose hypotheses are another's, has none of its own: the statement named in a
witness's docstring is the one it serves. -/

/-- A window with `o` garbage bytes before three packets, the last of them cut. -/
def win (o : Nat) : List Byte := raw o 0#8 ++ (pk 0#8 ++ pk 1#8 ++ (pk 2#8).take (188 - o))

/-- The rest of the last packet. -/
def tail (o : Nat) : List Byte := (pk 2#8).drop (188 - o)

/-- `o` garbage bytes and three packets. -/
def threeAt (o : Nat) : List Byte := win o ++ tail o

theorem pk_length (k : Byte) : (pk k).length = 188 := by
  rw [pk, frame, List.length_cons, List.length_cons, List.length_cons, raw, List.length_replicate]

/-- `RAW(0x00 × n)` holds no marker. -/
theorem raw_no_marker {n c : Nat} (h : c < n) : byteAt (raw n 0#8) c ≠ 0x47#8 := by
  rw [byteAt, raw, List.getD_eq_getElem _ _ (by rw [List.length_replicate]; exact h), List.getElem_replicate]
  decide

/-- What SYNCHRONIZE's statements ask of a window and its tail. -/
theorem win_facts {o : Nat} (h : o ≤ 187) : (win o).length = 564 ∧ (tail o).length = o ∧ ∀ c, c < o → ¬MarkersAt (win o) c := by
  refine ⟨?_, ?_, fun c hc hm => raw_no_marker hc ?_⟩
  · rw [win, List.length_append, List.length_append, List.length_append, List.length_take, pk_length, pk_length, pk_length,
      raw, List.length_replicate]; omega
  · rw [tail, List.length_drop, pk_length]; omega
  · rw [← hm.1, win, byteAt_append (by rw [raw, List.length_replicate]; exact hc)]

theorem win_markers : MarkersAt (win 0) 0 ∧ MarkersAt (win 5) 5 ∧ MarkersAt (win 187) 187 := by decide +kernel

theorem raw_no_pattern : ∀ o, o ≤ 187 → ¬MarkersAt (raw 564 0#8) o := fun o ho hm => raw_no_marker (n := 564) (c := o) (by omega) hm.1

/-- A packet whose payload is zeros. -/
def zeroPacket : Packet := ⟨false, false, false, 0#13, raw 185 0#8⟩

/-- DecodeOfEncode, ExecDecodeCompletes: a well-formed DECODE, with room in the counters. -/
theorem witness_decode_wf : zeroPacket.wf = true ∧ (Instr.decode zeroPacket).wf = true ∧ State.reset.Room 0 1 := by decide +kernel

/-- EncodeOfDecode: a frame of 188 bytes, and a command, each read as an instruction. -/
theorem witness_accepted :
    ((pk 0#8).length = 188 ∧ decode (.frame (pk 0#8)) = .instr (.decode zeroPacket)) ∧
    ((∀ bytes, Request.command 0x1000FFFF#32 = .frame bytes → bytes.length = 188) ∧
      decode (.command 0x1000FFFF#32) = .instr (.fill 0xFFFF#16)) :=
  ⟨by decide +kernel, fun _ h => (by cases h), by decide⟩

/-- SpecWordsDecode: a payload of 185 bytes. -/
theorem witness_payload : (raw 185 0#8).length = 185 := by decide +kernel

/-- CommandWordsByMask: a word for each clause, at the end of its range. -/
theorem witness_command_words :
    (0x1000FFFF#32 &&& 0xFFFF0000#32 = 0x10000000#32) ∧
    (0x20000008#32 &&& 0xFFFF0000#32 = 0x20000000#32 ∧ (0x20000008#32).setWidth 16 = csrNumber .cap) ∧
    (0x20000009#32 &&& 0xFFFF0000#32 ≠ 0x10000000#32 ∧
      ¬(0x20000009#32 &&& 0xFFFF0000#32 = 0x20000000#32 ∧ ((0x20000009#32).setWidth 16).toNat ≤ 8) ∧
      0x20000009#32 ≠ 0xF0000000#32) := by decide

/-- ReservedAndOutOfContractRefused, RdAnswersRegister (the last): a pending word for each kind of reserved word, at the ends of the ranges. -/
theorem witness_reserved :
    (asked (.command 0x00000000#32)).pending = .command 0x00000000#32 :: [] ∧
    (0x00000000#32).extractLsb' 28 4 = 0x0#4 ∧
    (0x3#4 ≤ (0x30000000#32).extractLsb' 28 4 ∧ (0x30000000#32).extractLsb' 28 4 ≤ 0xE#4) ∧
    (0x3#4 ≤ (0xE0000000#32).extractLsb' 28 4 ∧ (0xE0000000#32).extractLsb' 28 4 ≤ 0xE#4) ∧
    (0x18000003#32).extractLsb' 16 12 ≠ 0#12 ∧
    ((0xF0000001#32).extractLsb' 28 4 = 0xF#4 ∧ (0xF0000001#32).extractLsb' 0 16 ≠ 0#16) ∧
    ((0x20000009#32).extractLsb' 28 4 = 0x2#4 ∧ 8#16 < (0x20000009#32).extractLsb' 0 16) := by decide +kernel

/-- ReservedAndOutOfContractRefused, FILL: one slot more than exist, and two slots while unsynchronized. -/
theorem witness_out_of_contract :
    ({ State.reset with cfg := ⟨64, 3⟩ } : State).cfg.slotsMax < (4#16).toNat ∧
    (2#16 < 3#16 ∧ State.reset.pstate = .unsync) := by decide +kernel

/-- StepRunsDecodedInstruction: a pending RESET; and nothing pending. -/
theorem witness_step :
    ((asked (.command 0xF0000000#32)).pending = .command 0xF0000000#32 :: [] ∧ decode (.command 0xF0000000#32) = .instr .reset) ∧
    State.reset.pending = [] := by decide +kernel

/-- OnlyMissingMarkerIsIllegal: a frame without its marker, pending. -/
theorem witness_bad_frame : badFrame.length = 188 ∧ byteAt badFrame 0 ≠ 0x47#8 ∧
    (asked (.frame badFrame)).pending = .frame badFrame :: [] := by decide +kernel

/-- DecodeShortBufferTooSmall: V-D15 and V-D18. -/
theorem witness_short_buffers : (raw 187 0x47#8).length < 0 + 188 ∧ (raw 197 0x47#8).length < 10 + 188 := by decide +kernel

/-- DecodeWithoutMarkerFails: V-D14. -/
theorem witness_no_marker : 0 + 188 ≤ (0x46#8 :: raw 187 0#8).length ∧ byteAt (0x46#8 :: raw 187 0#8) 0 ≠ 0x47#8 := by
  decide +kernel

/-- DecodeExtractsFields: V-D17, a buffer exactly long enough at offset 10. -/
theorem witness_offset_ten : 10 + 188 ≤ (raw 10 0#8 ++ pk 1#8).length ∧ byteAt (raw 10 0#8 ++ pk 1#8) 10 = 0x47#8 ∧
    State.reset.Room 0 1 := by decide +kernel

/-- SearchTakesLowestOffset, both sides: found at 0, at 187 and nowhere. -/
theorem witness_search :
    MarkersAt (win 0) 0 ∧ (MarkersAt (win 187) 187 ∧ ∀ c, c < 187 → ¬MarkersAt (win 187) c) ∧
    (∀ o, o ≤ 187 → ¬MarkersAt (raw 564 0#8) o) :=
  ⟨win_markers.1, ⟨win_markers.2.2, (win_facts (by decide)).2.2⟩, raw_no_pattern⟩

/-- SynchronizeSucceeds at the offsets 0 and 187. -/
theorem witness_synchronize :
    ((onSource (threeAt 0)).pstate = .unsync ∧ (onSource (threeAt 0)).src = ⟨win 0 ++ tail 0 ++ [], .ended⟩ ∧
      ((win 0).length = 564 ∧ (tail 0).length = 0 ∧ ∀ c, c < 0 → ¬MarkersAt (win 0) c) ∧ MarkersAt (win 0) 0 ∧
      (onSource (threeAt 0)).Room (564 + 0) 3) ∧
    ((onSource (threeAt 187)).pstate = .unsync ∧ (onSource (threeAt 187)).src = ⟨win 187 ++ tail 187 ++ [], .ended⟩ ∧
      ((win 187).length = 564 ∧ (tail 187).length = 187 ∧ ∀ c, c < 187 → ¬MarkersAt (win 187) c) ∧
      MarkersAt (win 187) 187 ∧ (onSource (threeAt 187)).Room (564 + 187) 3) :=
  ⟨⟨rfl, by rw [List.append_nil]; rfl, win_facts (by decide), win_markers.1, by decide +kernel⟩,
    ⟨rfl, by rw [List.append_nil]; rfl, win_facts (by decide), win_markers.2.2, by decide +kernel⟩⟩

/-- SynchronizeWithoutCandidate: V-S6. -/
theorem witness_no_candidate :
    (onSource (raw 564 0#8)).pstate = .unsync ∧ (onSource (raw 564 0#8)).src = ⟨raw 564 0#8 ++ [], .ended⟩ ∧
    (raw 564 0#8).length = 564 ∧ (∀ o, o ≤ 187 → ¬MarkersAt (raw 564 0#8) o) ∧ (onSource (raw 564 0#8)).Room 564 0 :=
  ⟨rfl, by rw [List.append_nil]; rfl, by decide +kernel, raw_no_pattern, by decide +kernel⟩

/-- SynchronizeShortWindow: no byte, and one byte too few. -/
theorem witness_short_window :
    ((onSource []).pstate = .unsync ∧ (onSource []).src = ⟨[], .ended⟩ ∧ (onSource []).Room 0 0) ∧
    ((onSource (raw 563 0x47#8)).pstate = .unsync ∧ (onSource (raw 563 0x47#8)).src = ⟨raw 563 0x47#8, .ended⟩ ∧
      (raw 563 0x47#8).length < 564 ∧ (onSource (raw 563 0x47#8)).Room 563 0) :=
  ⟨by decide +kernel, rfl, rfl, by decide +kernel⟩

/-- SynchronizeShortTail: V-S11 (no tail byte), and the longest tail one byte short. -/
theorem witness_short_tail :
    ((onSource (win 5)).pstate = .unsync ∧ (onSource (win 5)).src = ⟨win 5 ++ [], .ended⟩ ∧
      ((win 5).length = 564 ∧ (tail 5).length = 5 ∧ ∀ c, c < 5 → ¬MarkersAt (win 5) c) ∧ MarkersAt (win 5) 5 ∧
      ([] : List Byte).length < 5 ∧ (onSource (win 5)).Room (564 + 0) 0) ∧
    ((onSource (win 187 ++ (tail 187).take 186)).pstate = .unsync ∧
      (onSource (win 187 ++ (tail 187).take 186)).src = ⟨win 187 ++ (tail 187).take 186, .ended⟩ ∧
      ((win 187).length = 564 ∧ (tail 187).length = 187 ∧ ∀ c, c < 187 → ¬MarkersAt (win 187) c) ∧
      MarkersAt (win 187) 187 ∧ ((tail 187).take 186).length < 187 ∧
      (onSource (win 187 ++ (tail 187).take 186)).Room (564 + 186) 0) :=
  ⟨⟨rfl, by rw [List.append_nil]; rfl, win_facts (by decide), win_markers.2.1, by decide +kernel⟩,
    ⟨rfl, rfl, win_facts (by decide), win_markers.2.2, by decide +kernel⟩⟩

/-- SynchronizeOnlyWhenUnsync. -/
theorem witness_not_unsync : (inState .sync []).pstate ≠ .unsync := by decide +kernel

/-- FillInContractIsAccepted: the least capacities in UNSYNC and in SYNC. -/
theorem witness_contract : FillAllowed (3#16).toNat State.reset ∧ FillAllowed (1#16).toNat (inState .sync []) := by
  decide +kernel

/-- FillInTerminalStates: EXHAUSTED; FAULTED with the kind that caused it; FAULTED with NONE, which no run reaches. -/
theorem witness_terminal :
    (1 ≤ (1#16).toNat ∧ (1#16).toNat ≤ State.reset.cfg.slotsMax) ∧ (inState .exhausted []).pstate = .exhausted ∧
    (({ inState .faulted [] with resErr := .streamTruncated } : State).pstate = .faulted ∧
      ({ inState .faulted [] with resErr := .streamTruncated } : State).resErr ≠ .none) ∧
    ((inState .faulted []).pstate = .faulted ∧ (inState .faulted []).resErr = .none) := by decide +kernel

/-- The third frame of `threeAt o`, and its three packets. -/
def third (o : Nat) : List Byte := (win o).drop (o + 376) ++ tail o

def three (o : Nat) : List Packet := [packetAt (win o) o, packetAt (win o) (o + 188), packetAt (third o) 0]

/-- Step 2 is entered from SYNC at once. -/
theorem enters_sync (bytes : List Byte) :
    (inState .sync bytes).EntersLoop [] [] (inState .sync bytes).win (inState .sync bytes).frm := .inl ⟨rfl, rfl, rfl, rfl, rfl⟩

/-- Step 2 is entered from UNSYNC through `threeAt 0` and through `threeAt 187`. -/
theorem enters_unsync (bytes : List Byte) :
    (onSource bytes).EntersLoop (win 0 ++ tail 0) (three 0) (win 0) (third 0) ∧
    (onSource bytes).EntersLoop (win 187 ++ tail 187) (three 187) (win 187) (third 187) := by
  obtain ⟨h1, h2, h3⟩ := win_facts (o := 0) (by decide)
  obtain ⟨k1, k2, k3⟩ := win_facts (o := 187) (by decide)
  exact ⟨.inr ⟨rfl, 0, tail 0, rfl, h1, h2, by decide, win_markers.1, h3, rfl, rfl⟩,
    .inr ⟨rfl, 187, tail 187, rfl, k1, k2, by decide, win_markers.2.2, k3, rfl, rfl⟩⟩

/-- FillFillsAllSlots: one slot and one frame in SYNC; three slots straight after a synchronization at 0; four after one at
187. -/
theorem witness_fills_all :
    ((inState .sync (pk 0#8)).EntersLoop [] [] (inState .sync (pk 0#8)).win (inState .sync (pk 0#8)).frm ∧
      1 ≤ (1#16).toNat ∧ (1#16).toNat ≤ (inState .sync (pk 0#8)).cfg.slotsMax ∧
      ([] : List Packet).length + [pk 0#8].length = (1#16).toNat ∧ (∀ f ∈ [pk 0#8], GoodFrame f) ∧
      (inState .sync (pk 0#8)).src = ⟨[] ++ ([pk 0#8].flatten ++ []), .ended⟩ ∧ (inState .sync (pk 0#8)).Room (0 + 188 * 1) (0 + 1)) ∧
    ((onSource (threeAt 0)).EntersLoop (win 0 ++ tail 0) (three 0) (win 0) (third 0) ∧
      (three 0).length + ([] : List (List Byte)).length = (3#16).toNat ∧
      (onSource (threeAt 0)).src = ⟨win 0 ++ tail 0 ++ (([] : List (List Byte)).flatten ++ []), .ended⟩ ∧
      (onSource (threeAt 0)).Room ((win 0 ++ tail 0).length + 188 * 0) ((three 0).length + 0)) ∧
    ((onSource (threeAt 187 ++ pk 3#8)).EntersLoop (win 187 ++ tail 187) (three 187) (win 187) (third 187) ∧
      (three 187).length + [pk 3#8].length = (4#16).toNat ∧ (∀ f ∈ [pk 3#8], GoodFrame f) ∧
      (onSource (threeAt 187 ++ pk 3#8)).src = ⟨win 187 ++ tail 187 ++ ([pk 3#8].flatten ++ []), .ended⟩ ∧
      (onSource (threeAt 187 ++ pk 3#8)).Room ((win 187 ++ tail 187).length + 188 * 1) ((three 187).length + 1)) :=
  ⟨⟨enters_sync _, by decide +kernel⟩, ⟨(enters_unsync _).1, by decide +kernel⟩, ⟨(enters_unsync _).2, by decide +kernel⟩⟩

/-- FillStopsAtCleanEnd: after one frame, at once, and right after a synchronization. -/
theorem witness_clean_end :
    ((inState .sync (pk 0#8)).EntersLoop [] [] (inState .sync (pk 0#8)).win (inState .sync (pk 0#8)).frm ∧
      (2#16).toNat ≤ (inState .sync (pk 0#8)).cfg.slotsMax ∧ ([] : List Packet).length + [pk 0#8].length < (2#16).toNat ∧
      (∀ f ∈ [pk 0#8], GoodFrame f) ∧ (inState .sync (pk 0#8)).src = ⟨[] ++ [pk 0#8].flatten, .ended⟩ ∧
      (inState .sync (pk 0#8)).Room (0 + 188 * 1) (0 + 1) ∧ 1 ≤ ([] : List Packet).length + [pk 0#8].length) ∧
    ((inState .sync []).EntersLoop [] [] (inState .sync []).win (inState .sync []).frm ∧
      ([] : List Packet).length + ([] : List (List Byte)).length < (1#16).toNat ∧
      (inState .sync []).src = ⟨[] ++ ([] : List (List Byte)).flatten, .ended⟩ ∧ (inState .sync []).Room (0 + 188 * 0) (0 + 0)) ∧
    ((onSource (threeAt 187)).EntersLoop (win 187 ++ tail 187) (three 187) (win 187) (third 187) ∧
      (three 187).length + ([] : List (List Byte)).length < (4#16).toNat ∧
      (onSource (threeAt 187)).src = ⟨win 187 ++ tail 187 ++ ([] : List (List Byte)).flatten, .ended⟩ ∧
      (onSource (threeAt 187)).Room ((win 187 ++ tail 187).length + 188 * 0) ((three 187).length + 0)) :=
  ⟨⟨enters_sync _, by decide +kernel⟩, ⟨enters_sync _, by decide +kernel⟩, ⟨(enters_unsync _).2, by decide +kernel⟩⟩

/-- FillTruncatedFaults: one byte of a frame (V-F2), and all but one, after a frame. -/
theorem witness_truncated :
    ((inState .sync (raw 1 0x47#8)).EntersLoop [] [] (inState .sync (raw 1 0x47#8)).win (inState .sync (raw 1 0x47#8)).frm ∧
      (2#16).toNat ≤ (inState .sync (raw 1 0x47#8)).cfg.slotsMax ∧ 1 ≤ (raw 1 0x47#8).length ∧ (raw 1 0x47#8).length < 188 ∧
      (inState .sync (raw 1 0x47#8)).src = ⟨[] ++ (([] : List (List Byte)).flatten ++ raw 1 0x47#8), .ended⟩ ∧
      (inState .sync (raw 1 0x47#8)).Room (0 + 188 * 0 + 1) (0 + 0)) ∧
    ((inState .sync (pk 0#8 ++ raw 187 0#8)).EntersLoop [] [] (inState .sync (pk 0#8 ++ raw 187 0#8)).win
        (inState .sync (pk 0#8 ++ raw 187 0#8)).frm ∧
      ([] : List Packet).length + [pk 0#8].length < (2#16).toNat ∧ (∀ f ∈ [pk 0#8], GoodFrame f) ∧
      1 ≤ (raw 187 0#8).length ∧ (raw 187 0#8).length < 188 ∧
      (inState .sync (pk 0#8 ++ raw 187 0#8)).src = ⟨[] ++ ([pk 0#8].flatten ++ raw 187 0#8), .ended⟩ ∧
      (inState .sync (pk 0#8 ++ raw 187 0#8)).Room (0 + 188 * 1 + 187) (0 + 1)) :=
  ⟨⟨enters_sync _, by decide +kernel⟩, ⟨enters_sync _, by decide +kernel⟩⟩

/-- FillBadMarkerFaults: program P3, step 2. -/
theorem witness_bad_marker :
    (inState .sync (pk 3#8 ++ (badFrame ++ pk 5#8))).EntersLoop [] [] (inState .sync (pk 3#8 ++ (badFrame ++ pk 5#8))).win
      (inState .sync (pk 3#8 ++ (badFrame ++ pk 5#8))).frm ∧
    (3#16).toNat ≤ (inState .sync (pk 3#8 ++ (badFrame ++ pk 5#8))).cfg.slotsMax ∧
    ([] : List Packet).length + [pk 3#8].length < (3#16).toNat ∧ (∀ f ∈ [pk 3#8], GoodFrame f) ∧ badFrame.length = 188 ∧
    byteAt badFrame 0 ≠ 0x47#8 ∧
    (inState .sync (pk 3#8 ++ (badFrame ++ pk 5#8))).src = ⟨[] ++ ([pk 3#8].flatten ++ (badFrame ++ pk 5#8)), .ended⟩ ∧
    (inState .sync (pk 3#8 ++ (badFrame ++ pk 5#8))).Room (0 + 188 * 1 + 188) (0 + 1) :=
  ⟨enters_sync _, by decide +kernel⟩

/-- FillSyncFailureStaysUnsync: V-S9, the empty stream. -/
theorem witness_sync_failure : ∃ u, (onSource []).pstate = .unsync ∧ 3 ≤ (3#16).toNat ∧
    (3#16).toNat ≤ (onSource []).cfg.slotsMax ∧ exec .synchronize (onSource []) = .next u ∧
    u.answer = .synced (.err .endOfStream) :=
  ⟨_, rfl, by decide, by decide +kernel, rfl, rfl⟩

/-- TransitionTable, FillNeverBufferTooSmall, FillCountsBytesAndPackets, FillRecordsFailure, FillFrame: FILL answers from each control state. -/
theorem witness_fill_answers :
    (∃ t, exec (.fill 3#16) (onSource []) = .next t) ∧ (∃ t, exec (.fill 1#16) (inState .sync []) = .next t) ∧
    (∃ t, exec (.fill 1#16) (inState .exhausted []) = .next t) ∧ (∃ t, exec (.fill 1#16) (inState .faulted []) = .next t) ∧
    (onSource []).resErr ≠ .bufferTooSmall :=
  ⟨⟨_, rfl⟩, ⟨_, rfl⟩, ⟨_, rfl⟩, ⟨_, rfl⟩, by decide +kernel⟩

/-- TransitionTable: RESET and RD answer. -/
theorem witness_host_answers : (∃ t, exec .reset State.reset = .next t) ∧ (∃ t, exec (.rd .cap) State.reset = .next t) :=
  ⟨⟨_, rfl⟩, ⟨_, rfl⟩⟩

/-- FillBlocksOnSilentSource, its three clauses: a window, a tail and a frame, each one byte short. -/
theorem witness_silent :
    (let s : State := { State.reset with src := ⟨raw 563 0#8, .silent⟩ }
     FillAllowed (3#16).toNat s ∧ s.pstate = .unsync ∧ (raw 563 0#8).length < 564 ∧ s.src = ⟨raw 563 0#8, .silent⟩) ∧
    (let s : State := { State.reset with src := ⟨win 187 ++ (tail 187).take 186, .silent⟩ }
     (FillAllowed (3#16).toNat s ∧ s.pstate = .unsync ∧ ((tail 187).take 186).length < 187 ∧ s.Room 564 0) ∧
     ((win 187).length = 564 ∧ (tail 187).length = 187 ∧ ∀ c, c < 187 → ¬MarkersAt (win 187) c) ∧
     MarkersAt (win 187) 187 ∧ s.src = ⟨win 187 ++ (tail 187).take 186, .silent⟩) ∧
    (let s : State := { inState .sync [] with src := ⟨raw 187 0#8, .silent⟩ }
     s.EntersLoop [] [] s.win s.frm ∧ FillAllowed (1#16).toNat s ∧
     ([] : List Packet).length + ([] : List (List Byte)).length < (1#16).toNat ∧ (raw 187 0#8).length < 188 ∧
     s.src = ⟨[] ++ (([] : List (List Byte)).flatten ++ raw 187 0#8), .silent⟩ ∧ s.Room (0 + 188 * 0) (0 + 0)) :=
  ⟨by decide +kernel, ⟨by decide +kernel, win_facts (by decide), win_markers.2.2, rfl⟩, .inl ⟨rfl, rfl, rfl, rfl, rfl⟩,
    by decide +kernel⟩

/-- OperationsReturnWhenSourceAnswers: the largest batch on an endless source. -/
theorem witness_endless :
    let s : State := { State.reset with src := ⟨[], .endless 0⟩ }
    FillAllowed (0xFFFF#16).toNat s ∧ s.src.after ≠ .silent ∧ s.Room (751 + 188 * (0xFFFF#16).toNat) (3 + (0xFFFF#16).toNat) ∧
    s.pstate = .unsync ∧ s.Room 751 3 := by decide +kernel

/-- `s` with CTR_W = 19 and the counters at `r`, `b` and `p`. -/
def near (r b p : Nat) (s : State) : State :=
  { s with cfg := ⟨19, 3⟩, bytesRead := r, bytesParsed := b, packetsParsed := p }

/-- CounterOverflowRefused, UNSYNC: the first value a counter cannot hold, reached by a whole window, by a short one, by a whole
tail, by a short one, and by the three packets. -/
theorem witness_sync_overflow :
    (near (2 ^ 19 - 564) 0 0 (onSource (raw 564 0#8))).SyncOverflows ∧
    (near (2 ^ 19 - 1) 0 0 (onSource (raw 1 0#8))).SyncOverflows ∧
    (near (2 ^ 19 - 564 - 187) 0 0 (onSource (threeAt 187))).SyncOverflows ∧
    (near (2 ^ 19 - 564 - 1) 0 0 (onSource (win 5 ++ (tail 5).take 1))).SyncOverflows ∧
    (near 0 0 (2 ^ 19 - 3) (onSource (threeAt 0))).SyncOverflows ∧
    (near 0 (2 ^ 19 - 564) 0 (onSource (threeAt 0))).SyncOverflows ∧
    (near 0 0 (2 ^ 19 - 3) (onSource (threeAt 0))).pstate = .unsync ∧
    FillAllowed (3#16).toNat (near 0 0 (2 ^ 19 - 3) (onSource (threeAt 0))) := by
  refine ⟨⟨raw 564 0#8, by decide +kernel, .inl (by decide +kernel)⟩, ⟨raw 1 0#8, by decide +kernel, .inl (by decide +kernel)⟩,
    ⟨win 187, by decide +kernel, .inr ⟨187, tail 187, (win_facts (by decide)).1, by decide, win_markers.2.2,
      (win_facts (by decide)).2.2, by decide +kernel, .inl (by decide +kernel)⟩⟩,
    ⟨win 5, by decide +kernel, .inr ⟨5, (tail 5).take 1, (win_facts (by decide)).1, by decide, win_markers.2.1,
      (win_facts (by decide)).2.2, by decide +kernel, .inl (by decide +kernel)⟩⟩,
    ⟨win 0, by decide +kernel, .inr ⟨0, tail 0, (win_facts (by decide)).1, by decide, win_markers.1,
      (win_facts (by decide)).2.2, by decide +kernel, .inr ⟨by decide +kernel, by decide +kernel⟩⟩⟩,
    ⟨win 0, by decide +kernel, .inr ⟨0, tail 0, (win_facts (by decide)).1, by decide, win_markers.1,
      (win_facts (by decide)).2.2, by decide +kernel, .inr ⟨by decide +kernel, by decide +kernel⟩⟩⟩,
    rfl, by decide +kernel⟩

/-- CounterOverflowRefused, SYNC and DECODE: the first value a counter cannot hold, reached by a whole frame read, by a short
one, by a frame's packet, and by DECODE's. -/
theorem witness_overflow :
    (near (2 ^ 19 - 188) 0 0 (inState .sync (pk 0#8))).FrameOverflows ∧
    (near (2 ^ 19 - 1) 0 0 (inState .sync (raw 1 0#8))).FrameOverflows ∧
    (near 0 0 (2 ^ 19 - 1) (inState .sync (pk 0#8))).FrameOverflows ∧
    (near 0 (2 ^ 19 - 188) 0 (inState .sync (pk 0#8))).FrameOverflows ∧
    (near 0 0 (2 ^ 19 - 1) (inState .sync (pk 0#8))).pstate = .sync ∧
    FillAllowed (1#16).toNat (near 0 0 (2 ^ 19 - 1) (inState .sync (pk 0#8))) ∧
    zeroPacket.wf = true ∧ 2 ^ 19 ≤ (near 0 0 (2 ^ 19 - 1) State.reset).packetsParsed + 1 ∧
    2 ^ 19 ≤ (near 0 (2 ^ 19 - 188) 0 State.reset).bytesParsed + 188 := by
  refine ⟨⟨pk 0#8, by decide +kernel, .inl (by decide +kernel)⟩, ⟨raw 1 0#8, by decide +kernel, .inl (by decide +kernel)⟩,
    ⟨pk 0#8, by decide +kernel, .inr ⟨by decide +kernel, by decide +kernel⟩⟩,
    ⟨pk 0#8, by decide +kernel, .inr ⟨by decide +kernel, by decide +kernel⟩⟩, rfl, by decide +kernel, by decide +kernel,
    by decide +kernel, by decide +kernel⟩

/-- CounterOverflowRefused, a later frame: `fill 1` takes the first of two frames, the second would pass the width. -/
theorem witness_later_overflow : ∃ t, exec (.fill 1#16) (near (2 ^ 19 - 376) 0 0 (inState .sync (pk 0#8 ++ pk 1#8))) = .next t ∧
    t.resErr = .none ∧ t.resCount = 1#16 ∧ (1#16).toNat < (2#16).toNat ∧
    (2#16).toNat ≤ (near (2 ^ 19 - 376) 0 0 (inState .sync (pk 0#8 ++ pk 1#8))).cfg.slotsMax ∧ t.FrameOverflows := by
  have h : nextWith (exec (.fill 1#16) (near (2 ^ 19 - 376) 0 0 (inState .sync (pk 0#8 ++ pk 1#8)))) (fun t =>
      t.resErr == .none && t.resCount == 1#16 && t.src.take 188 == some (pk 1#8) &&
        decide (2 ^ t.cfg.ctrW ≤ t.bytesRead + (pk 1#8).length)) = true := by decide +kernel
  obtain ⟨t, ht, hp⟩ := nextWith_exists h
  simp only [Bool.and_eq_true, beq_iff_eq, decide_eq_true_eq] at hp
  exact ⟨t, ht, hp.1.1.1, hp.1.1.2, by decide, by decide +kernel, pk 1#8, hp.1.2, .inl hp.2⟩

/-- CountersNeverPassWidth: counters that fit, and an instruction that answers. -/
theorem witness_counters_fit : ∃ t, State.reset.CountersFit ∧ exec (.fill 3#16) State.reset = .next t :=
  ⟨_, by decide +kernel, rfl⟩

/-- Two FILLs, the first filling its slots, that both answer, the second leaving PSTATE `p`. -/
theorem splits {s : State} {a b : BitVec 16} {p : PState} (h : nextWith (exec (.fill a) s) (fun t =>
      t.resErr == .none && t.resCount == a && nextWith (exec (.fill b) t) (fun u => u.pstate == p)) = true) :
    ∃ t u, exec (.fill a) s = .next t ∧ t.resErr = .none ∧ t.resCount = a ∧ exec (.fill b) t = .next u ∧ u.pstate = p := by
  obtain ⟨t, ht, hp⟩ := nextWith_exists h
  simp only [Bool.and_eq_true, beq_iff_eq] at hp
  obtain ⟨u, hu, hq⟩ := nextWith_exists hp.2
  exact ⟨t, u, ht, hp.1.1, hp.1.2, hu, beq_iff_eq.1 hq⟩

/-- SplitBatchesLoseNothing: in SYNC, the second batch filled; in SYNC, the second batch at the end of the source (EXHAUSTED);
from UNSYNC, a first batch of three through a synchronization. -/
theorem witness_split :
    ((2#16).toNat = (1#16).toNat + (1#16).toNat ∧ (2#16).toNat ≤ (inState .sync (pk 0#8 ++ pk 1#8)).cfg.slotsMax ∧
      ∃ t u, exec (.fill 1#16) (inState .sync (pk 0#8 ++ pk 1#8)) = .next t ∧ t.resErr = .none ∧ t.resCount = 1#16 ∧
        exec (.fill 1#16) t = .next u ∧ u.pstate = .sync) ∧
    ((2#16).toNat ≤ (inState .sync (pk 0#8)).cfg.slotsMax ∧
      ∃ t u, exec (.fill 1#16) (inState .sync (pk 0#8)) = .next t ∧ t.resErr = .none ∧ t.resCount = 1#16 ∧
        exec (.fill 1#16) t = .next u ∧ u.pstate = .exhausted) ∧
    ((4#16).toNat = (3#16).toNat + (1#16).toNat ∧ (4#16).toNat ≤ (onSource (threeAt 0 ++ pk 3#8)).cfg.slotsMax ∧
      ∃ t u, exec (.fill 3#16) (onSource (threeAt 0 ++ pk 3#8)) = .next t ∧ t.resErr = .none ∧ t.resCount = 3#16 ∧
        exec (.fill 1#16) t = .next u ∧ u.pstate = .sync) :=
  ⟨⟨by decide, by decide +kernel, splits (by decide +kernel)⟩, ⟨by decide +kernel, splits (by decide +kernel)⟩,
    ⟨by decide, by decide +kernel, splits (by decide +kernel)⟩⟩

/-- OnlyMarkersSteerFill: two sources that differ everywhere but in the marker. -/
theorem witness_markers :
    (inState .sync (pk 0#8)).pstate = .sync ∧
    (0x47#8 :: raw 187 0xFF#8).length = (inState .sync (pk 0#8)).src.bytes.length ∧
    (∀ i, byteAt (0x47#8 :: raw 187 0xFF#8) (188 * i) = byteAt (inState .sync (pk 0#8)).src.bytes (188 * i)) ∧
    (0x47#8 :: raw 187 0xFF#8) ≠ (inState .sync (pk 0#8)).src.bytes := by
  have h : (0x47#8 :: raw 187 0xFF#8).length = 188 ∧ (inState .sync (pk 0#8)).src.bytes.length = 188 := by decide +kernel
  refine ⟨rfl, h.1.trans h.2.symm, fun i => ?_, by decide +kernel⟩
  rcases Nat.eq_zero_or_pos i with rfl | hi
  · decide +kernel
  · rw [byteAt, byteAt, List.getD_eq_default _ _ (by omega), List.getD_eq_default _ _ (by omega)]

/-- InvariantKeptByStep, RegistersFitCounterWidth: a state with a command pending, and its step. -/
theorem witness_invariant : ∃ t, (asked (.command 0x20000008#32)).Inv ∧ step (asked (.command 0x20000008#32)) = .next t :=
  ⟨_, ⟨by decide +kernel, by decide +kernel, by decide +kernel, by decide +kernel,
    ⟨.nil, by decide +kernel, fun _ h => absurd h (Nat.not_lt_zero _), by decide +kernel⟩, by decide +kernel, by decide +kernel⟩, rfl⟩

/-- OnlyResetLeavesTerminalStates: RESET out of FAULTED. -/
theorem witness_leaves_faulted : ∃ t, step { asked (.command 0xF0000000#32) with pstate := .faulted } = .next t ∧
    t.pstate ≠ ({ asked (.command 0xF0000000#32) with pstate := .faulted } : State).pstate :=
  ⟨_, rfl, nofun⟩

/-- OnlyResetLowersCounters, ParsedBytesMatchPackets: a packet counted, no RESET; and a host command in FAULTED. -/
theorem witness_counting :
    (∃ t, (∀ rest, (asked (.frame (pk 0#8))).pending ≠ .command 0xF0000000#32 :: rest) ∧
      (asked (.frame (pk 0#8))).bytesParsed = (asked (.frame (pk 0#8))).packetsParsed * 188 ∧
      step (asked (.frame (pk 0#8))) = .next t ∧ t.packetsParsed = 1) ∧
    (let s : State := { asked (.command 0x10000001#32) with pstate := .faulted, resErr := .streamTruncated }
     ∃ t, (∀ rest, s.pending ≠ .command 0xF0000000#32 :: rest) ∧ s.HostOnly ∧ s.pstate = .faulted ∧
      s.bytesParsed = s.packetsParsed * 188 ∧ s.bytesParsed ≤ s.bytesRead ∧ step s = .next t) := by
  have h : nextWith (step (asked (.frame (pk 0#8)))) (fun t => t.packetsParsed == 1) = true := by decide +kernel
  obtain ⟨t, ht, hp⟩ := nextWith_exists h
  exact ⟨⟨t, fun _ h => (by cases h), rfl, ht, beq_iff_eq.1 hp⟩,
    ⟨_, fun _ h => (by cases h), by decide +kernel, rfl, rfl, Nat.le_refl _, rfl⟩⟩

/-- SlotReadAfterWrite: the last slot, and another. -/
theorem witness_slots : 65534 < State.reset.cfg.slotsMax ∧ 0 ≠ 65534 ∧ SlotsRising State.reset.slots :=
  ⟨by decide +kernel, by decide, .nil⟩

end Sys2Proof.Tests
end

section
/-! PROOFS. The state's own family: its reset values, and that no operation but RESET lowers a counter (10_state R27, R34,
R37). -/

namespace Sys2Proof.Machine

/-- `synchronized` is derived from PSTATE (10_state R22). -/
@[simp] theorem State.synchronized_eq_true_iff (s : State) : s.synchronized = true ↔ s.pstate ≠ .unsync := bne_iff_ne

/-- Settles O38: the reset state's literal values, and `synchronized` from its PSTATE. -/
theorem resetStateValues : Obligations.ResetStateValues := by
  have hsync : State.reset.synchronized = false := by
    rw [Bool.eq_false_iff, Ne, State.synchronized_eq_true_iff, Classical.not_not]; rfl
  exact ⟨rfl, hsync, rfl, rfl, rfl, rfl, rfl, rfl, rfl, rfl⟩

/-- From `s` to `t` no counter is lowered and `synchronized` is not cleared (10_state R27, R34). -/
structure NothingLowered (s t : State) : Prop where
  bytesRead : s.bytesRead ≤ t.bytesRead
  bytesParsed : s.bytesParsed ≤ t.bytesParsed
  packetsParsed : s.packetsParsed ≤ t.packetsParsed
  staysSynchronized : s.pstate ≠ .unsync → t.pstate ≠ .unsync

/-- `t` has the counters of `s`. -/
structure SameCounters (s t : State) : Prop where
  bytesRead : t.bytesRead = s.bytesRead
  bytesParsed : t.bytesParsed = s.bytesParsed
  packetsParsed : t.packetsParsed = s.packetsParsed

theorem NothingLowered.trans {s t u : State} (h : NothingLowered s t) (h' : NothingLowered t u) : NothingLowered s u where
  bytesRead := h.bytesRead.trans h'.bytesRead
  bytesParsed := h.bytesParsed.trans h'.bytesParsed
  packetsParsed := h.packetsParsed.trans h'.packetsParsed
  staysSynchronized := h'.staysSynchronized ∘ h.staysSynchronized

theorem SameCounters.trans {s t u : State} (h : SameCounters s t) (h' : SameCounters t u) : SameCounters s u where
  bytesRead := h'.bytesRead.trans h.bytesRead
  bytesParsed := h'.bytesParsed.trans h.bytesParsed
  packetsParsed := h'.packetsParsed.trans h.packetsParsed

theorem SameCounters.nothingLowered {s t : State} (h : SameCounters s t) (hp : s.pstate ≠ .unsync → t.pstate ≠ .unsync) :
    NothingLowered s t :=
  ⟨h.bytesRead.ge, h.bytesParsed.ge, h.packetsParsed.ge, hp⟩

/-- Ending a FILL moves no counter (40_fill R120). -/
theorem sameCounters_finish (n : Nat) (e : ErrKind) (s : State) : SameCounters s (finish n e s) :=
  ⟨finish_bytesRead n e s, finish_bytesParsed n e s, finish_packetsParsed n e s⟩

theorem nothingLowered_finish (n : Nat) (e : ErrKind) (s : State) : NothingLowered s (finish n e s) :=
  (sameCounters_finish n e s).nothingLowered (by rw [finish_pstate]; exact id)

/-- Step 2 of FILL never ends in UNSYNC unless it started there (40_fill R114 to R117). -/
theorem LoopEnd.ne_unsync {left n j : Nat} {src : Source} {p q : PState} {e : ErrKind} (h : LoopEnd left n j src p q e)
    (hp : p ≠ .unsync) : q ≠ .unsync := by
  cases h with
  | full | dry => exact hp
  | nothing | truncated | badMarker => decide

theorem fillLoop_nothingLowered {left n : Nat} {s t : State} (h : fillLoop left n s = .next t) : NothingLowered s t := by
  obtain ⟨m, ps, f, q, e, hend, rfl, -⟩ := fillLoop_cases h
  have hloop : NothingLowered s { afterLoop n m ps f s with pstate := q } :=
    ⟨Nat.le_add_right .., Nat.le_add_right .., Nat.le_add_right .., hend.ne_unsync⟩
  exact hloop.trans (nothingLowered_finish ..)

theorem synchronize_nothingLowered {s t : State} {r : SyncResult} (h : synchronize s = .next (r, t)) :
    NothingLowered s t := by
  rcases synchronize_cases h with ⟨m, w, e, -, rfl, -⟩ | ⟨w, o, tail, -, -, -, -, rfl, -⟩
  · exact ⟨Nat.le_add_right .., Nat.le_refl _, Nat.le_refl _, id⟩
  · exact ⟨Nat.le_add_right .., Nat.le_add_right .., Nat.le_add_right .., fun _ => by simp [afterThree]⟩

theorem execFill_nothingLowered {cap : BitVec 16} {s t : State} (h : execFill cap s = .next t) : NothingLowered s t := by
  rcases fillAccepted_cases (execFill_next.1 h).2 with
    ⟨-, rfl⟩ | ⟨-, rfl⟩ | ⟨-, hloop⟩ | ⟨-, u, e, hsync, rfl⟩ | ⟨-, u, p0, p1, p2, hsync, hloop⟩
  · exact nothingLowered_finish ..
  · exact nothingLowered_finish ..
  · exact fillLoop_nothingLowered hloop
  · exact (synchronize_nothingLowered hsync).trans (nothingLowered_finish ..)
  · have hslots : NothingLowered u (((u.setSlot 0 p0).setSlot 1 p1).setSlot 2 p2) :=
      SameCounters.nothingLowered ⟨rfl, rfl, rfl⟩ id
    exact (synchronize_nothingLowered hsync).trans (hslots.trans (fillLoop_nothingLowered hloop))

theorem execSynchronize_nothingLowered {s t : State} (h : execSynchronize s = .next t) : NothingLowered s t := by
  obtain ⟨-, r, u, hsync, rfl⟩ := execSynchronize_next.1 h
  exact (synchronize_nothingLowered hsync).trans (SameCounters.nothingLowered ⟨rfl, rfl, rfl⟩ id)

theorem execDecode_nothingLowered {pkt : Packet} {s t : State} (h : execDecode pkt s = .next t) : NothingLowered s t := by
  rcases execDecode_cases h with ⟨e, rfl⟩ | ⟨p, rfl⟩
  · exact SameCounters.nothingLowered ⟨rfl, rfl, rfl⟩ id
  · exact ⟨Nat.le_refl _, Nat.le_add_right .., Nat.le_add_right .., id⟩

/-- RD moves no counter (43_host_access R166). -/
theorem execRd_sameCounters {reg : Csr} {s t : State} (h : execRd reg s = .next t) : SameCounters s t := by
  cases h; exact ⟨rfl, rfl, rfl⟩

theorem execRd_pstate {reg : Csr} {s t : State} (h : execRd reg s = .next t) : t.pstate = s.pstate := by
  cases h; rfl

/-- Every instruction but RESET (10_state R27, R34). -/
theorem exec_nothingLowered {i : Instr} {s t : State} (hi : i ≠ .reset) (h : exec i s = .next t) : NothingLowered s t := by
  cases i with
  | decode pkt => exact execDecode_nothingLowered h
  | synchronize => exact execSynchronize_nothingLowered h
  | fill cap => exact execFill_nothingLowered h
  | rd reg => exact (execRd_sameCounters h).nothingLowered (by rw [execRd_pstate h]; exact id)
  | reset => exact absurd rfl hi

/-- In EXHAUSTED and FAULTED a FILL repeats its answer and counts nothing (40_fill R112). -/
theorem execFill_terminal_sameCounters {cap : BitVec 16} {s t : State} (hp : s.pstate = .exhausted ∨ s.pstate = .faulted)
    (h : execFill cap s = .next t) : SameCounters s t := by
  rcases fillAccepted_cases (execFill_next.1 h).2 with ⟨-, rfl⟩ | ⟨-, rfl⟩ | ⟨hsync, -⟩ | ⟨hun, -⟩ | ⟨hun, -⟩
  · exact sameCounters_finish ..
  · exact sameCounters_finish ..
  · simp [hsync] at hp
  · simp [hun] at hp
  · simp [hun] at hp

/-- A host command other than RESET moves no counter in EXHAUSTED and FAULTED (10_state R27). -/
theorem exec_terminal_sameCounters {r : Request} {i : Instr} {s t : State} (hr : r.isCommand = true)
    (hdec : decode r = .instr i) (hi : i ≠ .reset) (hp : s.pstate = .exhausted ∨ s.pstate = .faulted)
    (h : exec i s = .next t) : SameCounters s t := by
  obtain ⟨cap, rfl⟩ | ⟨reg, rfl⟩ | rfl := decode_isCommand hr hdec
  · exact execFill_terminal_sameCounters hp h
  · exact execRd_sameCounters h
  · exact absurd rfl hi

/-- A step that does not take RESET, with its two counter facts in the terms above (10_state R27, R34). -/
theorem step_counters {s t : State} (hreset : ∀ rest, s.pending ≠ .command 0xF0000000#32 :: rest)
    (h : step s = .next t) :
    NothingLowered s t ∧ (s.HostOnly → s.pstate = .exhausted ∨ s.pstate = .faulted → SameCounters s t) := by
  rcases step_cases h with ⟨-, rfl⟩ | ⟨r, rest, i, hpend, hdec, hexec⟩ | ⟨bytes, rest, e, -, rfl⟩
  · exact ⟨SameCounters.nothingLowered ⟨rfl, rfl, rfl⟩ id, fun _ _ => ⟨rfl, rfl, rfl⟩⟩
  · have hi : i ≠ .reset := by
      rintro rfl
      exact hreset rest (by rw [hpend, decode_reset hdec])
    have htaken : SameCounters s { s with pending := rest } := ⟨rfl, rfl, rfl⟩
    refine ⟨(htaken.nothingLowered id).trans (exec_nothingLowered hi hexec), fun hhost hp => ?_⟩
    have hr : r.isCommand = true := hhost r (by simp [hpend])
    exact htaken.trans (exec_terminal_sameCounters hr hdec hi hp hexec)
  · exact ⟨SameCounters.nothingLowered ⟨rfl, rfl, rfl⟩ id, fun _ _ => ⟨rfl, rfl, rfl⟩⟩

/-- Settles O40: what one step does to the counters and PSTATE, from what each instruction does to them. -/
theorem onlyResetLowersCounters : Obligations.OnlyResetLowersCounters := by
  intro s t hreset h
  obtain ⟨⟨hread, hparsed, hpackets, hsync⟩, hsame⟩ := step_counters hreset h
  refine ⟨⟨hread, hparsed, hpackets⟩, ?_, fun hhost hp => ?_⟩
  · simpa only [State.synchronized_eq_true_iff] using hsync
  · obtain ⟨hread', hparsed', hpackets'⟩ := hsame hhost hp
    exact ⟨hread', hparsed', hpackets'⟩

end Sys2Proof.Machine
end

section
/-! PROOFS. The memory family: a source read that can neither be served nor end stops the operation that issued it
(20_memory R55). -/

namespace Sys2Proof.Machine

/-- The window read comes before anything else SYNCHRONIZE does (41_synchronize R131). -/
theorem synchronize_window_blocks {s : State} {part : List Byte} (hsrc : s.src = ⟨part, .silent⟩)
    (hpart : part.length < 564) : synchronize s = .fault .sourceBlocked := by
  rw [synchronize, srcReadFull_silent hsrc hpart, andThen_fault]

/-- The frame read, issued while a slot is free (40_fill R114). -/
theorem fillLoop_frame_blocks {left n : Nat} {s : State} {part : List Byte} (hleft : left ≠ 0)
    (hsrc : s.src = ⟨part, .silent⟩) (hpart : part.length < 188) : fillLoop left n s = .fault .sourceBlocked := by
  obtain ⟨left, rfl⟩ := Nat.exists_eq_succ_of_ne_zero hleft
  rw [fillLoop, srcReadFull_silent hsrc hpart, andThen_fault]

/-- A whole window takes SYNCHRONIZE to its search (41_synchronize R131, R133). -/
theorem synchronize_of_window {s : State} {w post : List Byte} {after : SourceEnd} (hsrc : s.src = ⟨w ++ post, after⟩)
    (hw : w.length = 564) (hroom : s.bytesRead + 564 < 2 ^ s.cfg.ctrW) :
    synchronize s = syncWindow { s with bytesRead := s.bytesRead + 564, win := w, src := ⟨post, after⟩ } := by
  have hread := srcReadFull_append hsrc (hw ▸ hroom)
  rw [hw] at hread
  simp only [synchronize, hread, andThen_next, hw, Nat.lt_irrefl, if_false]
  exact if_neg (by decide)

/-- The tail read at the offset the search found (41_synchronize R135); at offset 0 there is none. -/
theorem syncWindow_tail_blocks {s : State} {part : List Byte} {o : Nat} (hfind : findSync s.win = some o)
    (hsrc : s.src = ⟨part, .silent⟩) (hpart : part.length < o) : syncWindow s = .fault .sourceBlocked := by
  have ho : o ≠ 0 := Nat.ne_zero_of_lt hpart
  simp only [syncWindow, hfind, syncFrom, readTail, if_neg ho, srcReadFull_silent hsrc hpart, andThen_fault]

/-- A FILL in UNSYNC stops as its synchronization stops (40_fill R113). -/
theorem execFill_synchronize_fault {cap : BitVec 16} {s : State} {f : Fault} (hallow : FillAllowed cap.toNat s)
    (hun : s.pstate = .unsync) (hsync : synchronize s = .fault f) : execFill cap s = .fault f := by
  rw [execFill, if_pos hallow]
  simp only [fillAccepted, hun, fillUnsync, hsync, andThen_fault]

/-- Settles O30: the window read blocks at once, the tail read after a whole window, the frame read after the good frames. -/
theorem fillBlocksOnSilentSource : Obligations.FillBlocksOnSilentSource := by
  intro s cap hallow
  refine ⟨fun part hun hpart hsrc => ?_, fun w part o hun hw hpart ho hmark hlow hsrc hroom => ?_,
    fun head ps w f fs part henter hlt hgood hpart hsrc hroom => ?_⟩
  · exact execFill_synchronize_fault hallow hun (synchronize_window_blocks hsrc hpart)
  · obtain ⟨hread, -, -⟩ := hroom
    have hfind : findSync w = some o := findSync_of_lowest ho hmark hlow
    refine execFill_synchronize_fault hallow hun ?_
    rw [synchronize_of_window hsrc hw hread]
    exact syncWindow_tail_blocks hfind rfl hpart
  · obtain ⟨hcap, hmax, -⟩ := hallow
    calc exec (.fill cap) s
        = fillLoop (cap.toNat - (ps.length + fs.length)) (ps.length + fs.length) _ :=
          execFill_frames henter hcap hmax hlt.le hgood hsrc hroom
      _ = .fault .sourceBlocked := fillLoop_frame_blocks (Nat.sub_ne_zero_of_lt hlt) rfl hpart

end Sys2Proof.Machine
end

section
/-! PROOFS. The encoding family: which command words the block takes and which it refuses (30_encoding R90 to R92), and the
fields of a decoded frame (R83 to R85). -/

namespace Sys2Proof

/-! ## A command word, its fields and its row's mask -/

/-- `arg` is the low half of the word (30_encoding R90). -/
theorem setWidth_eq_commandArg (w : BitVec 32) : w.setWidth 16 = commandArg w :=
  BitVec.setWidth_eq_extractLsb' (by decide)

theorem command_eq_iff {w v : BitVec 32} :
    w = v ↔ commandOp w = commandOp v ∧ commandZero w = commandZero v ∧ commandArg w = commandArg v := by
  refine ⟨by rintro rfl; exact ⟨rfl, rfl, rfl⟩, fun ⟨hop, hzero, harg⟩ => BitVec.eq_of_toNat_eq ?_⟩
  rw [command_fields w, command_fields v, hop, hzero, harg]

/-- The mask 0xFFFF0000 keeps `op` and `zero` and clears `arg`. -/
@[simp] theorem commandOp_mask (w : BitVec 32) : commandOp (w &&& 0xFFFF0000#32) = commandOp w := by
  rw [commandOp, BitVec.extractLsb'_and]
  exact BitVec.and_allOnes

@[simp] theorem commandZero_mask (w : BitVec 32) : commandZero (w &&& 0xFFFF0000#32) = commandZero w := by
  rw [commandZero, BitVec.extractLsb'_and]
  exact BitVec.and_allOnes

@[simp] theorem commandArg_mask (w : BitVec 32) : commandArg (w &&& 0xFFFF0000#32) = 0#16 := by
  rw [commandArg, BitVec.extractLsb'_and]
  exact BitVec.and_zero

/-- What a row with match `row` and mask 0xFFFF0000 says of the fields (30_encoding R91). -/
theorem mask_eq_row_iff {w row : BitVec 32} (hzero : commandZero row = 0#12) (harg : commandArg row = 0#16) :
    w &&& 0xFFFF0000#32 = row ↔ commandOp w = commandOp row ∧ commandZero w = 0#12 := by
  rw [command_eq_iff, hzero, harg]
  simp

theorem mask_eq_fill_iff {w : BitVec 32} :
    w &&& 0xFFFF0000#32 = 0x10000000#32 ↔ commandOp w = 0x1#4 ∧ commandZero w = 0#12 :=
  mask_eq_row_iff (by decide) (by decide)

theorem mask_eq_rd_iff {w : BitVec 32} :
    w &&& 0xFFFF0000#32 = 0x20000000#32 ↔ commandOp w = 0x2#4 ∧ commandZero w = 0#12 :=
  mask_eq_row_iff (by decide) (by decide)

theorem eq_resetWord_iff {w : BitVec 32} :
    w = 0xF0000000#32 ↔ commandOp w = 0xF#4 ∧ commandZero w = 0#12 ∧ commandArg w = 0#16 :=
  command_eq_iff

/-! ## The command decoder, one rule per row and one for the reserved words -/

theorem decodeCommand_fill {w : BitVec 32} (hop : commandOp w = 0x1#4) (hzero : commandZero w = 0#12) :
    decodeCommand w = .instr (.fill (commandArg w)) := by
  simp [decodeCommand, hop, hzero]

theorem decodeCommand_rd {w : BitVec 32} {r : Csr} (hop : commandOp w = 0x2#4) (hzero : commandZero w = 0#12)
    (harg : commandArg w = csrNumber r) : decodeCommand w = .instr (.rd r) := by
  simp [decodeCommand, hop, hzero, harg]

theorem decodeCommand_reset {w : BitVec 32} (hop : commandOp w = 0xF#4) (hzero : commandZero w = 0#12)
    (harg : commandArg w = 0#16) : decodeCommand w = .instr .reset := by
  simp [decodeCommand, hop, hzero, harg]

/-- The words 30_encoding R92 reserves, by their fields. -/
inductive ReservedWord (w : BitVec 32) : Prop where
  | zero (h : commandZero w ≠ 0#12)
  | op (hfill : commandOp w ≠ 0x1#4) (hrd : commandOp w ≠ 0x2#4) (hreset : commandOp w ≠ 0xF#4)
  | rd (hop : commandOp w = 0x2#4) (harg : 8 < (commandArg w).toNat)
  | reset (hop : commandOp w = 0xF#4) (harg : commandArg w ≠ 0#16)

theorem decodeCommand_reserved {w : BitVec 32} (h : ReservedWord w) :
    decodeCommand w = .reject (.reservedCommand w) := by
  by_cases hzero : commandZero w = 0#12
  · cases h with
    | zero h => exact absurd hzero h
    | op hfill hrd hreset => simp [decodeCommand, hzero, hfill, hrd, hreset]
    | rd hop harg => simp [decodeCommand, hzero, hop, csrOfNumber_eq_none.2 harg]
    | reset hop harg => simp [decodeCommand, hzero, hop, harg]
  · simp [decodeCommand, hzero]

/-- The operation codes no row has (30_encoding R92). -/
theorem reservedWord_of_op {w : BitVec 32}
    (h : commandOp w = 0x0#4 ∨ (0x3#4 ≤ commandOp w ∧ commandOp w ≤ 0xE#4)) : ReservedWord w := by
  refine .op ?_ ?_ ?_ <;>
  · intro hop
    rw [hop] at h
    exact absurd h (by decide)

/-- A word that no row of the opcode table matches is reserved (30_encoding R91, R92). -/
theorem reservedWord_of_no_row {w : BitVec 32} (hfill : w &&& 0xFFFF0000#32 ≠ 0x10000000#32)
    (hrd : ¬(w &&& 0xFFFF0000#32 = 0x20000000#32 ∧ (commandArg w).toNat ≤ 8)) (hreset : w ≠ 0xF0000000#32) :
    ReservedWord w := by
  rw [Ne, mask_eq_fill_iff] at hfill
  rw [mask_eq_rd_iff] at hrd
  rw [Ne, eq_resetWord_iff] at hreset
  by_cases hzero : commandZero w = 0#12
  · by_cases hop2 : commandOp w = 0x2#4
    · exact .rd hop2 (Nat.lt_of_not_le fun harg => hrd ⟨⟨hop2, hzero⟩, harg⟩)
    by_cases hopF : commandOp w = 0xF#4
    · exact .reset hopF fun harg => hreset ⟨hopF, hzero, harg⟩
    exact .op (fun hop1 => hfill ⟨hop1, hzero⟩) hop2 hopF
  · exact .zero hzero

/-- Settles O4: each row's match and mask fix the fields the decoder branches on, and a word of no row is reserved. -/
theorem commandWordsByMask : Obligations.CommandWordsByMask := by
  intro w
  rw [setWidth_eq_commandArg]
  refine ⟨fun hrow => ?_, fun r hrow harg => ?_, fun hw => ?_, fun hfill hrd hreset => ?_⟩
  · obtain ⟨hop, hzero⟩ := mask_eq_fill_iff.1 hrow
    exact decodeCommand_fill hop hzero
  · obtain ⟨hop, hzero⟩ := mask_eq_rd_iff.1 hrow
    exact decodeCommand_rd hop hzero harg
  · obtain ⟨hop, hzero, harg⟩ := eq_resetWord_iff.1 hw
    exact decodeCommand_reset hop hzero harg
  · exact decodeCommand_reserved (reservedWord_of_no_row hfill hrd hreset)

/-! ## The header flags by their masks -/

/-- A bit of a byte is the test of the byte against that bit's mask. -/
theorem getLsbD_eq_decide_mask (b : Byte) {i : Nat} (hi : i < 8) :
    b.getLsbD i = decide (b &&& BitVec.twoPow 8 i ≠ 0#8) := by
  have hmask : BitVec.twoPow 8 i ≠ 0#8 := fun h => by
    have hbit : (BitVec.twoPow 8 i).getLsbD i = true := by simp [hi]
    simp [h] at hbit
  rw [BitVec.and_twoPow]
  cases b.getLsbD i <;> simp [hmask]

theorem headerFlag0_eq_mask (b : Byte) : headerFlag0 b = decide (b &&& 0x80#8 ≠ 0#8) :=
  getLsbD_eq_decide_mask b (i := 7) (by decide)

theorem headerFlag1_eq_mask (b : Byte) : headerFlag1 b = decide (b &&& 0x40#8 ≠ 0#8) :=
  getLsbD_eq_decide_mask b (i := 6) (by decide)

theorem headerFlag2_eq_mask (b : Byte) : headerFlag2 b = decide (b &&& 0x20#8 ≠ 0#8) :=
  getLsbD_eq_decide_mask b (i := 5) (by decide)

/-- The payload is the bytes from `off + 3` on (30_encoding R85). -/
theorem byteAt_payloadAt (buf : List Byte) (off : Nat) {j : Nat} (hj : j < 185) :
    byteAt (payloadAt buf off) j = byteAt buf (off + 3 + j) := by
  rw [payloadAt, byteAt_take hj, byteAt_drop]

end Sys2Proof

namespace Sys2Proof.Machine

/-- A step takes the oldest request in (43_host_access R168). -/
theorem step_of_pending {s : State} {r : Request} {rest : List Request} (hpend : s.pending = r :: rest) :
    step s = runRequest exec r { s with pending := rest } := by
  rw [step, takeRequest, hpend]

/-- The block gives a reserved command word no step (30_encoding R92). -/
theorem step_reserved {s : State} {w : BitVec 32} {rest : List Request} (hpend : s.pending = .command w :: rest)
    (hw : ReservedWord w) : step s = .refused (.reservedCommand w) := by
  rw [step_of_pending hpend, runRequest, decode, decodeCommand_reserved hw]
  rfl

/-- FILL is refused outside its contract (40_fill R111). -/
theorem execFill_out_of_contract {cap : BitVec 16} {s : State} (h : ¬FillAllowed cap.toNat s) :
    execFill cap s = .refused .fillOutOfContract := if_neg h

/-- The three ways out of the contract (30_encoding R92, 40_fill R111). -/
theorem not_fillAllowed {cap : BitVec 16} {s : State}
    (h : cap = 0#16 ∨ s.cfg.slotsMax < cap.toNat ∨ (cap < 3#16 ∧ s.pstate = .unsync)) : ¬FillAllowed cap.toNat s := by
  rintro ⟨hpos, hmax, hthree⟩
  rcases h with rfl | hbig | ⟨hsmall, hun⟩
  · exact absurd hpos (by decide)
  · exact absurd hmax (Nat.not_le.2 hbig)
  · exact absurd (hthree hun) (Nat.not_le.2 (BitVec.lt_def.1 hsmall))

/-- Settles O5: every listed word is a reserved one, and every listed FILL is out of contract. -/
theorem reservedAndOutOfContractRefused : Obligations.ReservedAndOutOfContractRefused := by
  refine ⟨fun s w rest hpend hfields => step_reserved hpend ?_, fun s cap hcap =>
    execFill_out_of_contract (not_fillAllowed hcap)⟩
  rcases hfields with hop | hop | hzero | ⟨hop, harg⟩ | ⟨hop, harg⟩
  · exact reservedWord_of_op (.inl hop)
  · exact reservedWord_of_op (.inr hop)
  · exact .zero hzero
  · exact .reset hop harg
  · exact .rd hop (BitVec.lt_def.1 harg)

/-- Settles O10: the record is `packetAt`, whose fields are the rules' masks and sums. -/
theorem decodeExtractsFields : Obligations.DecodeExtractsFields := by
  intro buf off s hlen hmarker ⟨_, hparsed, hpackets⟩
  have hwf : (packetAt buf off).wf = true := packetAt_wf hlen
  exact ⟨packetAt buf off, decodeBuf_ok hlen hmarker hpackets hparsed, headerFlag0_eq_mask _, headerFlag1_eq_mask _,
    headerFlag2_eq_mask _, headerPid_toNat _ _, beq_iff_eq.1 hwf, fun j hj => byteAt_payloadAt buf off hj⟩

end Sys2Proof.Machine
end

section
/-! PROOFS. The fill family: where a FILL stops once good frames have been delivered (40_fill R114 to R117). -/

namespace Sys2Proof.Machine

/-! ## The state a batch of packets leaves -/

/-- `s` after a FILL has read `m` bytes and put the packets `ps` in SLOT[0], SLOT[1], ..., with `w` in WIN, `f` in FRM,
`src` still to read and the control state `q`. -/
def afterBatch (q : PState) (m : Nat) (ps : List Packet) (w f : List Byte) (src : Source) (s : State) : State :=
  { s with pstate := q, bytesRead := s.bytesRead + m, bytesParsed := s.bytesParsed + 188 * ps.length,
           packetsParsed := s.packetsParsed + ps.length, win := w, frm := f, slots := slotWriteFrom 0 ps s.slots,
           src := src }

section
variable (q : PState) (m : Nat) (ps : List Packet) (w f : List Byte) (src : Source) (s : State)

@[simp] theorem afterBatch_cfg : (afterBatch q m ps w f src s).cfg = s.cfg := rfl
@[simp] theorem afterBatch_pstate : (afterBatch q m ps w f src s).pstate = q := rfl
@[simp] theorem afterBatch_bytesRead : (afterBatch q m ps w f src s).bytesRead = s.bytesRead + m := rfl
@[simp] theorem afterBatch_win : (afterBatch q m ps w f src s).win = w := rfl
@[simp] theorem afterBatch_frm : (afterBatch q m ps w f src s).frm = f := rfl
@[simp] theorem afterBatch_src : (afterBatch q m ps w f src s).src = src := rfl

/-- A batch writes its own slots in order and no other, and counts each packet once (20_memory R62, 42_decode R156). -/
theorem delivered_afterBatch : Delivered s (afterBatch q m ps w f src s) ps where
  packets := rfl
  parsed := rfl
  written k hk := by
    have h := slotLookup_writeFrom 0 ps hk s.slots
    rwa [Nat.zero_add] at h
  kept k hk := slotLookup_writeFrom_ge ps (by simpa using hk) s.slots
  cfg := rfl
  pending := rfl
  resets := rfl

theorem sameRecord_afterBatch : SameRecord s (afterBatch q m ps w f src s) := ⟨rfl, rfl, rfl⟩

/-- The read that stops a batch takes `k` bytes more; it may leave its frame in FRM. -/
theorem afterBatch_stop (q' : PState) (k : Nat) (f' : List Byte) (src' : Source) :
    { afterBatch q m ps w f src s with
      pstate := q', bytesRead := (afterBatch q m ps w f src s).bytesRead + k, frm := f', src := src' } =
    afterBatch q' (m + k) ps w f' src' s := by
  simp only [afterBatch, Nat.add_assoc]

end

/-! ## What ending a FILL does to that state (40_fill R120) -/

theorem Delivered.finish {s t : State} {ps : List Packet} (h : Delivered s t ps) (n : Nat) (e : ErrKind) :
    Delivered s (finish n e t) ps where
  packets := by rw [finish_packetsParsed, h.packets]
  parsed := by rw [finish_bytesParsed, h.parsed]
  written k hk := by rw [finish_slots, h.written k hk]
  kept k hk := by rw [finish_slots, h.kept k hk]
  cfg := by rw [finish_cfg, h.cfg]
  pending := by rw [finish_pending, h.pending]
  resets := by rw [finish_resets, h.resets]

/-- A count that fits RES_COUNT stands there as it is. -/
theorem finish_resCount_toNat {n : Nat} (hn : n < 2 ^ 16) (e : ErrKind) (s : State) :
    (finish n e s).resCount.toNat = n := by
  rw [finish_resCount, BitVec.toNat_ofNat, Nat.mod_eq_of_lt hn]

theorem finished_finish {n : Nat} (hn : n < 2 ^ 16) (e : ErrKind) (s : State) : (finish n e s).Finished n e :=
  ⟨finish_resCount_toNat hn e s, finish_resErr .., by rw [finish_answer, finish_resCount]⟩

/-- An error kind other than NONE writes the error record. -/
theorem recordsNow_finish {e : ErrKind} (he : e ≠ .none) (n : Nat) (s : State) : (finish n e s).RecordsNow := by
  simp [State.RecordsNow, he]

/-- NONE leaves the error record. -/
theorem SameRecord.finish {s t : State} (h : SameRecord s t) (n : Nat) : SameRecord s (finish n .none t) := by
  simpa [SameRecord] using h

/-! ## The read at which step 2 stops -/

section
variable {left n : Nat} {s : State}

/-- Step 2 at the clean end of the source, packets having been produced (40_fill R115). -/
theorem fillLoop_dry (hleft : left ≠ 0) (hn : 1 ≤ n) (hsrc : s.src = ⟨[], .ended⟩)
    (hroom : s.bytesRead < 2 ^ s.cfg.ctrW) : fillLoop left n s = .next (finish n .none s) := by
  obtain ⟨left, rfl⟩ := Nat.exists_eq_succ_of_ne_zero hleft
  rw [fillLoop, srcReadFull_ended hsrc (by decide) hroom, ← hsrc]
  exact if_pos hn

/-- Step 2 at the clean end of the source, nothing having been produced (40_fill R115). -/
theorem fillLoop_nothing (hleft : left ≠ 0) (hsrc : s.src = ⟨[], .ended⟩) (hroom : s.bytesRead < 2 ^ s.cfg.ctrW) :
    fillLoop left 0 s = .next (finish 0 .endOfStream { s with pstate := .exhausted }) := by
  obtain ⟨left, rfl⟩ := Nat.exists_eq_succ_of_ne_zero hleft
  rw [fillLoop, srcReadFull_ended hsrc (by decide) hroom, ← hsrc]
  rfl

/-- Step 2 where the source ends inside a frame (40_fill R116). -/
theorem fillLoop_truncated {part : List Byte} (hleft : left ≠ 0) (hsrc : s.src = ⟨part, .ended⟩) (hpos : 1 ≤ part.length)
    (hlt : part.length < 188) (hroom : s.bytesRead + part.length < 2 ^ s.cfg.ctrW) :
    fillLoop left n s = .next (finish n .streamTruncated { s with
      pstate := .faulted, bytesRead := s.bytesRead + part.length, src := ⟨[], .ended⟩ }) := by
  obtain ⟨left, rfl⟩ := Nat.exists_eq_succ_of_ne_zero hleft
  rw [fillLoop, srcReadFull_ended hsrc hlt hroom, andThen_next]
  simp only [if_neg (Nat.ne_of_gt hpos), if_pos hlt]

/-- Step 2 on a whole frame without its marker (40_fill R117). -/
theorem fillLoop_badMarker {bad rest : List Byte} {after : SourceEnd} (hleft : left ≠ 0)
    (hsrc : s.src = ⟨bad ++ rest, after⟩) (hlen : bad.length = 188) (hbad : byteAt bad 0 ≠ marker)
    (hroom : s.bytesRead + 188 < 2 ^ s.cfg.ctrW) :
    fillLoop left n s = .next (finish n .noMarkerPresent { s with
      pstate := .faulted, bytesRead := s.bytesRead + 188, frm := bad, src := ⟨rest, after⟩ }) := by
  obtain ⟨left, rfl⟩ := Nat.exists_eq_succ_of_ne_zero hleft
  have hread := srcReadFull_append hsrc (hlen ▸ hroom)
  rw [hlen] at hread
  rw [fillLoop, hread, andThen_next]
  simp only [hlen, Nat.lt_irrefl, if_false]
  rw [if_neg (by decide), decodeBuf_noMarker hlen.ge hbad, andThen_next]

end

/-! ## FILL through good frames, then its stop -/

/-- `exec`'s arm for FILL (40_fill R122). -/
theorem exec_fill (cap : BitVec 16) (s : State) : exec (.fill cap) s = execFill cap s := rfl

/-- FILL goes through good frames with their packets delivered as one batch (40_fill R112 to R114). -/
theorem execFill_afterBatch {cap : BitVec 16} {s : State} {head : List Byte} {ps : List Packet} {w f : List Byte}
    {fs : List (List Byte)} {more : List Byte} {after : SourceEnd} (hent : s.EntersLoop head ps w f)
    (hcap : 1 ≤ cap.toNat) (hmax : cap.toNat ≤ s.cfg.slotsMax) (hle : ps.length + fs.length ≤ cap.toNat)
    (hgood : ∀ f ∈ fs, GoodFrame f) (hsrc : s.src = ⟨head ++ (fs.flatten ++ more), after⟩)
    (hroom : s.Room (head.length + 188 * fs.length) (ps.length + fs.length)) :
    exec (.fill cap) s = fillLoop (cap.toNat - (ps.length + fs.length)) (ps.length + fs.length)
      (afterBatch .sync (head.length + 188 * fs.length) (ps ++ fs.map (packetAt · 0)) w (fs.getLastD f) ⟨more, after⟩
        s) := by
  rw [exec_fill, execFill_frames hent hcap hmax hle hgood hsrc hroom]
  simp [afterBatch, Nat.add_assoc]

/-- Settles O20: the good frames leave no slot free, and step 2 ends there. -/
theorem fillFillsAllSlots : Obligations.FillFillsAllSlots := by
  intro s cap head ps w f fs rest after hent hcap hmax hfull hgood hsrc hroom
  have hfit : cap.toNat < 2 ^ 16 := cap.isLt
  have hbatch := execFill_afterBatch hent hcap hmax hfull.le hgood hsrc hroom
  rw [hfull, Nat.sub_self] at hbatch
  refine ⟨_, hbatch, (delivered_afterBatch ..).finish .., finished_finish hfit .., ?_, ?_, ?_, ?_, ?_,
    (sameRecord_afterBatch ..).finish _⟩
  all_goals simp [Nat.add_assoc]

/-- Settles O21: the read after the good frames returns no byte; the count decides between NONE and EndOfStream. -/
theorem fillStopsAtCleanEnd : Obligations.FillStopsAtCleanEnd := by
  intro s cap head ps w f fs hent hmax hlt hgood hsrc hroom
  have hfit : ps.length + fs.length < 2 ^ 16 := hlt.trans cap.isLt
  have hleft : cap.toNat - (ps.length + fs.length) ≠ 0 := Nat.sub_ne_zero_of_lt hlt
  have hbatch := execFill_afterBatch (more := []) hent (Nat.one_le_of_lt hlt) hmax hlt.le hgood (by simpa using hsrc) hroom
  obtain ⟨hread, -, -⟩ := hroom
  by_cases hn : 1 ≤ ps.length + fs.length
  · rw [fillLoop_dry hleft hn rfl hread] at hbatch
    refine ⟨_, hbatch, (delivered_afterBatch ..).finish .., ?_, ?_, ?_, ?_,
      fun _ => ⟨finished_finish hfit .., by simp, (sameRecord_afterBatch ..).finish _⟩,
      fun hz => absurd hz (Nat.ne_of_gt hn)⟩
    all_goals simp [Nat.add_assoc]
  · have hz : ps.length + fs.length = 0 := Nat.lt_one_iff.1 (Nat.lt_of_not_le hn)
    rw [hz] at hbatch
    rw [fillLoop_nothing (by omega) rfl hread] at hbatch
    refine ⟨_, hbatch, (delivered_afterBatch .exhausted ..).finish .., ?_, ?_, ?_, ?_, fun h => absurd h hn,
      fun _ => ⟨finished_finish (by decide) .., by simp, recordsNow_finish (by decide) ..⟩⟩
    all_goals simp [Nat.add_assoc]

/-- Settles O22: the read after the good frames is short, and is counted before step 2 faults. -/
theorem fillTruncatedFaults : Obligations.FillTruncatedFaults := by
  intro s cap head ps w f fs part hent hmax hlt hgood hpos hpart hsrc ⟨hread, hparsed, hpackets⟩
  have hfit : ps.length + fs.length < 2 ^ 16 := hlt.trans cap.isLt
  have hleft : cap.toNat - (ps.length + fs.length) ≠ 0 := Nat.sub_ne_zero_of_lt hlt
  have hbatch := execFill_afterBatch hent (Nat.one_le_of_lt hlt) hmax hlt.le hgood hsrc ⟨by omega, hparsed, hpackets⟩
  rw [fillLoop_truncated hleft rfl hpos hpart (by rwa [afterBatch_bytesRead, Nat.add_assoc]), afterBatch_stop] at hbatch
  refine ⟨_, hbatch, (delivered_afterBatch ..).finish .., finished_finish hfit .., ?_, ?_, ?_, ?_, ?_,
    recordsNow_finish (by decide) ..⟩
  all_goals simp [Nat.add_assoc]

/-- Settles O23: the read after the good frames is whole, its decode fails and counts nothing. -/
theorem fillBadMarkerFaults : Obligations.FillBadMarkerFaults := by
  intro s cap head ps w f fs bad rest after hent hmax hlt hgood hlen hbad hsrc ⟨hread, hparsed, hpackets⟩
  have hfit : ps.length + fs.length < 2 ^ 16 := hlt.trans cap.isLt
  have hleft : cap.toNat - (ps.length + fs.length) ≠ 0 := Nat.sub_ne_zero_of_lt hlt
  have hbatch := execFill_afterBatch hent (Nat.one_le_of_lt hlt) hmax hlt.le hgood hsrc ⟨by omega, hparsed, hpackets⟩
  rw [fillLoop_badMarker hleft rfl hlen hbad (by rwa [afterBatch_bytesRead, Nat.add_assoc]), afterBatch_stop] at hbatch
  refine ⟨_, hbatch, (delivered_afterBatch ..).finish .., finished_finish hfit .., ?_, ?_, ?_, ?_, ?_,
    recordsNow_finish (by decide) ..⟩
  all_goals simp [Nat.add_assoc]

end Sys2Proof.Machine
end

section
/-! PROOFS. The fill family: what a FILL counts (40_fill R118, 20_memory R53). -/

namespace Sys2Proof.Machine

/-! ## The bytes taken from the source -/

/-- From `s` to `t` bytesRead has risen by the number of bytes taken from the source, which the source had (20_memory R53). -/
def TookBytes (s t : State) : Prop :=
  ∃ m, t.bytesRead = s.bytesRead + m ∧ t.src = s.src.advance m ∧
    (m ≤ s.src.bytes.length ∨ ∃ next, s.src.after = .endless next)

/-- Where neither the counter nor the source moves, no byte was taken. -/
theorem TookBytes.of_same {s t : State} (hread : t.bytesRead = s.bytesRead) (hsrc : t.src = s.src) : TookBytes s t :=
  ⟨0, hread, by rw [hsrc, Source.advance_zero], .inl (Nat.zero_le _)⟩

theorem Source.endless_of_advance {src : Source} {m next : Nat} (h : (src.advance m).after = .endless next) :
    ∃ k, src.after = .endless k := by
  obtain ⟨bytes, after⟩ := src
  cases after with
  | ended | silent => cases h
  | endless k => exact ⟨k, rfl⟩

theorem TookBytes.trans {s t u : State} (h : TookBytes s t) (h' : TookBytes t u) : TookBytes s u := by
  obtain ⟨m, hread, hsrc, hhas⟩ := h
  obtain ⟨m', hread', hsrc', hhas'⟩ := h'
  refine ⟨m + m', by rw [hread', hread, Nat.add_assoc], by rw [hsrc', hsrc, Source.advance_advance], ?_⟩
  rw [hsrc] at hhas'
  rcases hhas with hm | hend
  · rcases hhas' with hm' | ⟨next, hend⟩
    · have hleft : (s.src.advance m).bytes.length = s.src.bytes.length - m := List.length_drop ..
      exact .inl (by omega)
    · exact .inr (Source.endless_of_advance hend)
  · exact .inr hend

theorem srcReadFull_tookBytes {n : Nat} {s t : State} {bytes : List Byte} (h : srcReadFull n s = .next (bytes, t)) :
    TookBytes s t := by
  obtain ⟨htake, -, rfl⟩ := srcReadFull_next.1 h
  exact ⟨bytes.length, rfl, rfl, Source.take_supplied htake⟩

theorem readTail_tookBytes {o : Nat} {s t : State} {tail : List Byte} (h : readTail o s = .next (tail, t)) :
    TookBytes s t := by
  unfold readTail at h
  split at h
  · cases h; exact .of_same rfl rfl
  · exact srcReadFull_tookBytes h

/-- DECODE takes nothing from the source (42_decode R156). -/
theorem decodeBuf_tookBytes {buf : List Byte} {off : Nat} {s t : State} {r : DecodeResult}
    (h : decodeBuf buf off s = .next (r, t)) : TookBytes s t := by
  rcases decodeBuf_next.1 h with ⟨-, -, rfl⟩ | ⟨-, -, -, rfl⟩ | ⟨-, -, -, -, -, rfl⟩ <;> exact .of_same rfl rfl

theorem decodeThree_tookBytes {o : Nat} {tail : List Byte} {s t : State} {r : SyncResult}
    (h : decodeThree o tail s = .next (r, t)) : TookBytes s t := by
  unfold decodeThree at h
  obtain ⟨⟨r0, s0⟩, hdec0, h⟩ := andThen_eq_next.1 h
  cases r0 with
  | err e => cases h; exact decodeBuf_tookBytes hdec0
  | ok p0 =>
    obtain ⟨⟨r1, s1⟩, hdec1, h⟩ := andThen_eq_next.1 h
    have hto1 : TookBytes s s1 := (decodeBuf_tookBytes hdec0).trans (decodeBuf_tookBytes hdec1)
    cases r1 with
    | err e => cases h; exact hto1
    | ok p1 =>
      obtain ⟨⟨r2, s2⟩, hdec2, h⟩ := andThen_eq_next.1 h
      have hfrm : TookBytes s1 { s1 with frm := thirdFrame s1.win o tail } := .of_same rfl rfl
      have hto2 : TookBytes s s2 := hto1.trans (hfrm.trans (decodeBuf_tookBytes hdec2))
      cases r2 with
      | err e => cases h; exact hto2
      | ok p2 => cases h; exact hto2

theorem syncWindow_tookBytes {s t : State} {r : SyncResult} (h : syncWindow s = .next (r, t)) : TookBytes s t := by
  unfold syncWindow at h
  split at h
  · cases h; exact .of_same rfl rfl
  · obtain ⟨⟨tail, u⟩, htail, h⟩ := andThen_eq_next.1 h
    have htook := readTail_tookBytes htail
    simp only at h
    split at h
    · cases h; exact htook
    · exact htook.trans (decodeThree_tookBytes h)

theorem synchronize_tookBytes {s t : State} {r : SyncResult} (h : synchronize s = .next (r, t)) : TookBytes s t := by
  obtain ⟨⟨bytes, u⟩, hread, h⟩ := andThen_eq_next.1 h
  have htook := srcReadFull_tookBytes hread
  simp only at h
  split at h
  · cases h; exact htook
  split at h
  · cases h; exact htook
  · exact htook.trans (syncWindow_tookBytes (s := { u with win := bytes }) h)

theorem tookBytes_finish (n : Nat) (e : ErrKind) (s : State) : TookBytes s (finish n e s) :=
  .of_same (finish_bytesRead ..) (finish_src ..)

theorem fillLoop_tookBytes {left n : Nat} {s t : State} (h : fillLoop left n s = .next t) : TookBytes s t := by
  induction left generalizing n s with
  | zero => cases h; exact tookBytes_finish ..
  | succ left ih =>
    rw [fillLoop] at h
    obtain ⟨⟨bytes, u⟩, hread, h⟩ := andThen_eq_next.1 h
    refine (srcReadFull_tookBytes hread).trans ?_
    simp only at h
    split at h
    · split at h <;> cases h <;> exact tookBytes_finish ..
    split at h
    · cases h; exact tookBytes_finish ..
    obtain ⟨⟨r, v⟩, hdec, h⟩ := andThen_eq_next.1 h
    refine (decodeBuf_tookBytes hdec).trans ?_
    cases r with
    | err e => cases h; exact tookBytes_finish ..
    | ok p =>
      have hslot : TookBytes v (v.setSlot n p) := .of_same rfl rfl
      exact hslot.trans (ih h)

theorem execFill_tookBytes {cap : BitVec 16} {s t : State} (h : execFill cap s = .next t) : TookBytes s t := by
  rcases fillAccepted_cases (execFill_next.1 h).2 with
    ⟨-, rfl⟩ | ⟨-, rfl⟩ | ⟨-, hloop⟩ | ⟨-, u, e, hsync, rfl⟩ | ⟨-, u, p0, p1, p2, hsync, hloop⟩
  · exact tookBytes_finish ..
  · exact tookBytes_finish ..
  · exact fillLoop_tookBytes hloop
  · exact (synchronize_tookBytes hsync).trans (tookBytes_finish ..)
  · have hslots : TookBytes u (((u.setSlot 0 p0).setSlot 1 p1).setSlot 2 p2) := .of_same rfl rfl
    exact (synchronize_tookBytes hsync).trans (hslots.trans (fillLoop_tookBytes hloop))

/-! ## The packets delivered -/

/-- From `s` to `t` exactly `j` packets were counted, each with its 188 bytes (42_decode R156). -/
structure CountedPackets (j : Nat) (s t : State) : Prop where
  packets : t.packetsParsed = s.packetsParsed + j
  parsed : t.bytesParsed = s.bytesParsed + 188 * j

theorem CountedPackets.trans {i j : Nat} {s t u : State} (h : CountedPackets i s t) (h' : CountedPackets j t u) :
    CountedPackets (i + j) s u :=
  ⟨by rw [h'.packets, h.packets, Nat.add_assoc], by rw [h'.parsed, h.parsed, Nat.mul_add, Nat.add_assoc]⟩

theorem countedPackets_finish (n : Nat) (e : ErrKind) (s : State) : CountedPackets 0 s (finish n e s) :=
  ⟨finish_packetsParsed .., finish_bytesParsed ..⟩

/-- Step 2 produces no more packets than it has slots. -/
theorem LoopEnd.le_left {left n j : Nat} {src : Source} {p q : PState} {e : ErrKind} (h : LoopEnd left n j src p q e) :
    j ≤ left := by
  cases h with
  | full hj => exact hj.le
  | dry hj | nothing hj | truncated hj | badMarker hj => exact hj.le

/-- The count step 2 finishes with is the packets before it and those it counted. -/
theorem fillLoop_countedPackets {left n : Nat} {s t : State} (h : fillLoop left n s = .next t)
    (hfit : n + left < 2 ^ 16) : ∃ j, t.resCount.toNat = n + j ∧ CountedPackets j s t := by
  obtain ⟨m, ps, f, q, e, hend, rfl, -⟩ := fillLoop_cases h
  have hle := hend.le_left
  exact ⟨ps.length, finish_resCount_toNat (by omega) .., finish_packetsParsed .., finish_bytesParsed ..⟩

/-- A failed synchronization has decoded nothing (41_synchronize R132, R134, R136). -/
theorem synchronize_err_countedPackets {s t : State} {e : ErrKind} (h : synchronize s = .next (.err e, t)) :
    CountedPackets 0 s t := by
  rcases synchronize_cases h with ⟨m, w, e', -, rfl, -⟩ | ⟨w, o, tail, -, -, -, hr, -⟩
  · exact ⟨rfl, rfl⟩
  · cases hr

/-- A synchronization delivers three packets (41_synchronize R137). -/
theorem synchronize_ok_countedPackets {s t : State} {p0 p1 p2 : Packet} (h : synchronize s = .next (.ok p0 p1 p2, t)) :
    CountedPackets 3 s t := by
  rcases synchronize_cases h with ⟨m, w, e, hr, -⟩ | ⟨w, o, tail, -, -, -, -, rfl, -⟩
  · cases hr
  · exact ⟨rfl, rfl⟩

/-- A FILL counts the packets its result reports (40_fill R118). -/
theorem execFill_countedPackets {cap : BitVec 16} {s t : State} (h : execFill cap s = .next t) :
    CountedPackets t.resCount.toNat s t := by
  have hcap : cap.toNat < 2 ^ 16 := cap.isLt
  have hzero : ∀ e u, (finish 0 e u).resCount.toNat = 0 := finish_resCount_toNat (by decide)
  obtain ⟨⟨-, -, hthree⟩, hacc⟩ := execFill_next.1 h
  rcases fillAccepted_cases hacc with
    ⟨-, rfl⟩ | ⟨-, rfl⟩ | ⟨-, hloop⟩ | ⟨-, u, e, hsync, rfl⟩ | ⟨hun, u, p0, p1, p2, hsync, hloop⟩
  · rw [hzero]; exact countedPackets_finish ..
  · rw [hzero]; exact countedPackets_finish ..
  · obtain ⟨j, hcount, hj⟩ := fillLoop_countedPackets hloop (by omega)
    rw [hcount, Nat.zero_add]; exact hj
  · rw [hzero]; exact (synchronize_err_countedPackets hsync).trans (countedPackets_finish ..)
  · have hle := hthree hun
    obtain ⟨j, hcount, hj⟩ := fillLoop_countedPackets hloop (by omega)
    have hslots : CountedPackets 0 u (((u.setSlot 0 p0).setSlot 1 p1).setSlot 2 p2) := ⟨rfl, rfl⟩
    rw [hcount, ← Nat.zero_add j]; exact (synchronize_ok_countedPackets hsync).trans (hslots.trans hj)

/-- Settles O27: the packets counted are the result's, and every byte read was taken from the source. -/
theorem fillCountsBytesAndPackets : Obligations.FillCountsBytesAndPackets := by
  intro s t cap h
  obtain ⟨hpackets, hparsed⟩ := execFill_countedPackets h
  exact ⟨hpackets, hparsed, execFill_tookBytes h⟩

end Sys2Proof.Machine
end


section
/-! PROOFS. The synchronize family: the offset the search answers (41_synchronize R133). -/

namespace Sys2Proof.Machine

/-- The search tests the offsets in ascending order, so it has passed over every smaller one. -/
theorem not_markersAt_of_lt_findSync {w : List Byte} {o c : Nat} (h : findSync w = some o) (hc : c < o) :
    ¬MarkersAt w c := by
  rw [findSync, List.find?_range_eq_some] at h
  obtain ⟨-, -, hbelow⟩ := h
  have hfail := hbelow c hc
  rw [Bool.not_eq_true', Bool.eq_false_iff] at hfail
  exact mt (syncAt_iff w c).2 hfail

theorem findSync_eq_some_iff {w : List Byte} {o : Nat} :
    findSync w = some o ↔ o ≤ 187 ∧ MarkersAt w o ∧ ∀ c, c < o → ¬MarkersAt w c := by
  constructor
  · intro h
    obtain ⟨ho, hmark⟩ := findSync_sound h
    exact ⟨Nat.le_of_lt_succ ho, hmark, fun c hc => not_markersAt_of_lt_findSync h hc⟩
  · rintro ⟨ho, hmark, hlow⟩
    exact findSync_of_lowest ho hmark hlow

theorem findSync_eq_none_iff {w : List Byte} : findSync w = none ↔ ∀ o, o ≤ 187 → ¬MarkersAt w o := by
  rw [findSync, List.find?_eq_none]
  refine forall_congr' fun o => imp_congr ?_ (not_congr (syncAt_iff w o))
  rw [List.mem_range, Nat.lt_succ_iff]

/-- Settles O12: the search is the first hit in the ascending range 0..187, and its test is the three markers. -/
theorem searchTakesLowestOffset : Obligations.SearchTakesLowestOffset :=
  fun _ => ⟨fun _ => findSync_eq_some_iff, findSync_eq_none_iff⟩

end Sys2Proof.Machine
end

section
/-! PROOFS. The decode family: what DECODE's two failing checks answer (42_decode R151, R152), and that the first of them
never fails inside a FILL (R158). -/

namespace Sys2Proof.Machine

/-- Settles O8: the length check comes first. -/
theorem decodeShortBufferTooSmall : Obligations.DecodeShortBufferTooSmall :=
  fun _ _ _ hshort => decodeBuf_next.2 (.inl ⟨hshort, rfl, rfl⟩)

/-- Settles O9: the marker check follows the length check, and nothing is counted before it. -/
theorem decodeWithoutMarkerFails : Obligations.DecodeWithoutMarkerFails :=
  fun _ _ _ hlen hmark => decodeBuf_noMarker hlen hmark

/-- Step 2 hands DECODE whole frames only, so it ends with another kind (40_fill R114 to R117). -/
theorem LoopEnd.ne_bufferTooSmall {left n j : Nat} {src : Source} {p q : PState} {e : ErrKind}
    (h : LoopEnd left n j src p q e) : e ≠ .bufferTooSmall := by
  cases h with
  | full | dry | nothing | truncated | badMarker => decide

theorem fillLoop_resErr_ne_bufferTooSmall {left n : Nat} {s t : State} (h : fillLoop left n s = .next t) :
    t.resErr ≠ .bufferTooSmall := by
  obtain ⟨m, ps, f, q, e, hend, rfl, -⟩ := fillLoop_cases h
  rw [finish_resErr]
  exact hend.ne_bufferTooSmall

/-- A failed synchronization found no marker or met the end of the source (41_synchronize R132, R134, R136). -/
theorem synchronize_err_ne_bufferTooSmall {s t : State} {e : ErrKind} (h : synchronize s = .next (.err e, t)) :
    e ≠ .bufferTooSmall := by
  rcases synchronize_cases h with ⟨m, w, e', hr, -, -, -, hkind⟩ | ⟨w, o, tail, -, -, -, hr, -⟩
  · cases hr
    rcases hkind with rfl | ⟨rfl | rfl, -⟩ <;> decide
  · cases hr

/-- Settles O26: FAULTED repeats the kind it holds, and no other answer of a FILL carries this one. -/
theorem fillNeverBufferTooSmall : Obligations.FillNeverBufferTooSmall := by
  intro s t cap hbefore h
  rw [exec_fill] at h
  rcases fillAccepted_cases (execFill_next.1 h).2 with
    ⟨-, rfl⟩ | ⟨-, rfl⟩ | ⟨-, hloop⟩ | ⟨-, u, e, hsync, rfl⟩ | ⟨-, u, p0, p1, p2, -, hloop⟩
  · rw [finish_resErr]; decide
  · rwa [finish_resErr]
  · exact fillLoop_resErr_ne_bufferTooSmall hloop
  · rw [finish_resErr]; exact synchronize_err_ne_bufferTooSmall hsync
  · exact fillLoop_resErr_ne_bufferTooSmall hloop

end Sys2Proof.Machine
end

section
/-! PROOFS. The host access family: a step runs the instruction it decodes (43_host_access R168), and the value RD answers
(R166, 30_encoding R93). -/

namespace Sys2Proof.Machine

/-- A request that is an instruction is carried out by running it (43_host_access R168). -/
theorem runRequest_of_instr {run : Instr → State → Outcome State} {r : Request} {i : Instr} {s : State}
    (hdec : decode r = .instr i) : runRequest run r s = run i s := by
  rw [runRequest, hdec]

/-- With nothing pending the block is quiescent (70 R223). -/
theorem step_of_idle {s : State} (hpend : s.pending = []) : step s = .next s := by
  rw [step, takeRequest, hpend]

/-- Settles O6: the step takes the oldest request, and a request that decodes is run. -/
theorem stepRunsDecodedInstruction : Obligations.StepRunsDecodedInstruction := by
  refine ⟨fun s r rest i hpend hdec => ?_, fun s hpend => step_of_idle hpend⟩
  rw [step_of_pending hpend, runRequest_of_instr hdec]

/-- STATUS: `synchronized` is bit 2, above the PSTATE code (30_encoding R93). -/
theorem State.statusWord_toNat (s : State) : s.statusWord.toNat = 4 * s.synchronized.toNat + s.pstate.code.toNat := by
  rw [State.statusWord, BitVec.toNat_append, ← Nat.shiftLeft_add_eq_or_of_lt s.pstate.code.isLt, Nat.shiftLeft_eq,
    Nat.mul_comm, BitVec.toNat_ofBool]

/-- RESULT: the error code stands above the 16 bits of RES_COUNT (30_encoding R93). -/
theorem State.resultWord_toNat (s : State) : s.resultWord.toNat = s.resCount.toNat + 65536 * s.resErr.code.toNat := by
  rw [State.resultWord, BitVec.toNat_append, ← Nat.shiftLeft_add_eq_or_of_lt s.resCount.isLt, Nat.shiftLeft_eq,
    Nat.mul_comm, Nat.add_comm]

theorem State.csr_status (s : State) : s.csr .status = 4 * s.synchronized.toNat + s.pstate.code.toNat :=
  s.statusWord_toNat

theorem State.csr_result (s : State) : s.csr .result = s.resCount.toNat + 65536 * s.resErr.code.toNat :=
  s.resultWord_toNat

/-- RD writes nothing but the answer (43_host_access R166). -/
theorem exec_rd (r : Csr) (s : State) : exec (.rd r) s = .next { s with answer := .value (s.csr r) } := rfl

/-- Settles O35: the two packed registers are put together from their codes, the others are state elements as they stand;
a register number above 8 makes the word a reserved one. -/
theorem rdAnswersRegister : Obligations.RdAnswersRegister := by
  refine ⟨fun s r => ?_, fun w hop harg => decodeCommand_reserved (.rd hop (BitVec.lt_def.1 harg))⟩
  rw [exec_rd]
  cases r with
  | status =>
    rw [State.csr_status, State.synchronized]
    cases s.pstate <;> rfl
  | result =>
    rw [State.csr_result]
    cases s.resErr <;> rfl
  | bytesRead | bytesParsed | packetsParsed | errBytesRead | errBytesParsed | errPackets | cap => rfl

end Sys2Proof.Machine
end

section
/-! PROOFS. The reset family: RESET writes the reset values and leaves the source where it stands (43_host_access R167,
70 R211). -/

namespace Sys2Proof.Machine

/-- RESET always answers, with the reset state of the state it is given (43_host_access R167). -/
theorem exec_reset (s : State) : exec .reset s = .next s.toReset := rfl

/-- The sizes of WIN and FRM outlive a RESET, whatever bytes they then hold (10_state R37). -/
theorem State.toReset_buffer_lengths (s : State) : s.toReset.win.length = 564 ∧ s.toReset.frm.length = 188 := by
  rw [State.toReset_win, State.toReset_frm]
  exact ⟨freeWin_length _, freeFrm_length _⟩

/-- Settles O37: the state RESET answers is `s.toReset`; its fields are read off by their laws, the two buffers by their
sizes. -/
theorem resetRestoresResetValues : Obligations.ResetRestoresResetValues := by
  intro s
  obtain ⟨hwin, hfrm⟩ := s.toReset_buffer_lengths
  exact ⟨s.toReset, exec_reset s, s.toReset_pstate, s.toReset_bytesRead, s.toReset_bytesParsed, s.toReset_packetsParsed,
    s.toReset_resCount, s.toReset_resErr, s.toReset_errBytesRead, s.toReset_errBytesParsed, s.toReset_errPackets,
    hwin, hfrm, s.toReset_src, s.toReset_cfg, s.toReset_pending⟩

end Sys2Proof.Machine
end

section
/-! PROOFS. The encoding family: decoder and encoder are inverse to each other on every request the block accepts
(30_encoding R81 to R91). -/

namespace Sys2Proof

/-! ## The fields of a word put together from its halves -/

theorem commandOp_append (hi lo : BitVec 16) : commandOp (hi ++ lo) = hi.extractLsb' 12 4 :=
  BitVec.extractLsb'_append_eq_of_le (by decide)

theorem commandZero_append (hi lo : BitVec 16) : commandZero (hi ++ lo) = hi.extractLsb' 0 12 :=
  BitVec.extractLsb'_append_eq_of_le (by decide)

@[simp] theorem commandArg_append (hi lo : BitVec 16) : commandArg (hi ++ lo) = lo := by
  apply BitVec.eq_of_toNat_eq
  rw [commandArg, BitVec.extractLsb'_toNat, command_append_toNat, Nat.shiftRight_zero]
  have := lo.isLt
  omega

/-- A word with the operation bits of a row in its upper half, by its fields (30_encoding R91). -/
theorem append_eq_of_fields {w : BitVec 32} {hi : BitVec 16} (hop : commandOp w = hi.extractLsb' 12 4)
    (hzero : commandZero w = hi.extractLsb' 0 12) : hi ++ commandArg w = w :=
  command_eq_iff.2 ⟨by rw [commandOp_append, hop], by rw [commandZero_append, hzero], commandArg_append ..⟩

/-! ## The frame -/

theorem decodeFrame_eq_instr_iff {bytes : List Byte} {i : Instr} :
    decodeFrame bytes = .instr i ↔ 188 ≤ bytes.length ∧ byteAt bytes 0 = marker ∧ i = .decode (packetAt bytes 0) := by
  unfold decodeFrame
  by_cases hlen : bytes.length < 188
  · simp [hlen, Nat.not_le.2 hlen]
  by_cases hmark : byteAt bytes 0 = marker
  · simp [hlen, hmark, Nat.not_lt.1 hlen, eq_comm]
  · simp [hlen, hmark]

theorem decodeFrame_noMarker {bytes : List Byte} (hlen : 188 ≤ bytes.length) (hmark : byteAt bytes 0 ≠ marker) :
    decodeFrame bytes = .reject .noMarkerPresent := by
  simp [decodeFrame, hmark, Nat.not_lt.2 hlen]

theorem Packet.wf_iff {p : Packet} : p.wf = true ↔ p.payload.length = 185 := beq_iff_eq

/-- The frame of a whole record has its 188 bytes (30_encoding R81). -/
theorem encodeFrame_length_of_wf {p : Packet} (h : p.wf = true) : (encodeFrame p).length = 188 := by
  rw [encodeFrame_length, Packet.wf_iff.1 h]

/-- The record read from a frame of 188 bytes encodes to that frame: its header bytes are rebuilt from their fields
(30_encoding R82). -/
theorem encodeFrame_packetAt {bytes : List Byte} (hlen : bytes.length = 188) (hmark : byteAt bytes 0 = marker) :
    encodeFrame (packetAt bytes 0) = bytes := by
  obtain _ | ⟨b0, _ | ⟨b1, _ | ⟨b2, payload⟩⟩⟩ := bytes
  · simp at hlen
  · simp at hlen
  · simp at hlen
  have hb0 : b0 = marker := hmark
  have hpayload : payload.take 185 = payload := List.take_of_length_le (by simp at hlen; omega)
  have hrec : packetAt (b0 :: b1 :: b2 :: payload) 0 =
      ⟨headerFlag0 b1, headerFlag1 b1, headerFlag2 b1, headerPid b1 b2, payload⟩ := by
    rw [packetAt, payloadAt, List.drop_succ_cons, List.drop_succ_cons, List.drop_succ_cons, List.drop_zero, hpayload]
    rfl
  rw [hrec, encodeFrame, headerByte1_of_fields, headerByte2_of_fields, hb0]

/-! ## The decoder undoes the encoder, and the encoder the decoder -/

/-- Settles O1: each encoding has the fields its own row's decoder rule asks for. -/
theorem decodeOfEncode : Obligations.DecodeOfEncode := by
  intro i hwf
  cases i with
  | decode pkt =>
    refine decodeFrame_eq_instr_iff.2 ⟨(encodeFrame_length_of_wf hwf).ge, byteAt_encodeFrame_zero pkt, ?_⟩
    rw [packetAt_encodeFrame hwf]
  | synchronize => rfl
  | fill cap =>
    have hdec := decodeCommand_fill (w := 0x1000#16 ++ cap) (commandOp_append ..) (commandZero_append ..)
    rwa [commandArg_append] at hdec
  | rd reg => exact decodeCommand_rd (commandOp_append ..) (commandZero_append ..) (commandArg_append ..)
  | reset => exact decodeCommand_reset (by decide) (by decide) (by decide)

/-- A command word that is an instruction is that instruction's encoding (30_encoding R90, R91). -/
theorem encode_of_decodeCommand {w : BitVec 32} {i : Instr} (h : decodeCommand w = .instr i) :
    encode i = .command w ∧ i.wf = true := by
  by_cases hzero : commandZero w = 0#12
  case neg => rw [decodeCommand_reserved (.zero hzero)] at h; cases h
  by_cases hop1 : commandOp w = 0x1#4
  · rw [decodeCommand_fill hop1 hzero] at h
    cases h
    exact ⟨congrArg _ (append_eq_of_fields hop1 hzero), rfl⟩
  by_cases hop2 : commandOp w = 0x2#4
  · cases hreg : csrOfNumber (commandArg w).toNat with
    | none => rw [decodeCommand_reserved (.rd hop2 (csrOfNumber_eq_none.1 hreg))] at h; cases h
    | some reg =>
      have harg := csrNumber_of_csrOfNumber hreg
      rw [decodeCommand_rd hop2 hzero harg.symm] at h
      cases h
      exact ⟨by rw [encode, harg, append_eq_of_fields hop2 hzero], rfl⟩
  by_cases hopF : commandOp w = 0xF#4
  · by_cases harg : commandArg w = 0#16
    · rw [decodeCommand_reset hopF hzero harg] at h
      cases h
      exact ⟨congrArg _ (eq_resetWord_iff.2 ⟨hopF, hzero, harg⟩).symm, rfl⟩
    · rw [decodeCommand_reserved (.reset hopF harg)] at h; cases h
  · rw [decodeCommand_reserved (.op hop1 hop2 hopF)] at h; cases h

theorem decodePattern_eq_instr {b0 b1 b2 : Byte} {i : Instr} (h : decodePattern b0 b1 b2 = .instr i) :
    b0 = marker ∧ b1 = marker ∧ b2 = marker ∧ i = .synchronize := by
  unfold decodePattern at h
  split at h
  · obtain ⟨h0, h1, h2⟩ := ‹_ ∧ _›
    cases h
    exact ⟨h0, h1, h2, rfl⟩
  · cases h

/-- Settles O2: format by format, the fields the decoder took put the request together again. -/
theorem encodeOfDecode : Obligations.EncodeOfDecode := by
  intro r i hlen h
  cases r with
  | command w => exact encode_of_decodeCommand h
  | frame bytes =>
    have hlen : bytes.length = 188 := hlen bytes rfl
    obtain ⟨-, hmark, rfl⟩ := decodeFrame_eq_instr_iff.1 h
    exact ⟨congrArg _ (encodeFrame_packetAt hlen hmark), packetAt_wf hlen.ge⟩
  | pattern b0 b1 b2 =>
    obtain ⟨rfl, rfl, rfl, rfl⟩ := decodePattern_eq_instr h
    exact ⟨rfl, rfl⟩

/-- Settles O3: each word is the encoding of its instruction, which decodes back. -/
theorem specWordsDecode : Obligations.SpecWordsDecode := by
  refine ⟨decodeOfEncode (.fill 3#16) rfl, decodeOfEncode (.rd .cap) rfl, decodeOfEncode .reset rfl,
    decodeOfEncode .synchronize rfl, fun payload hlen => ?_⟩
  have hdec : ∀ f0 f1 f2 pid, decode (.frame (encodeFrame ⟨f0, f1, f2, pid, payload⟩)) =
      .instr (.decode ⟨f0, f1, f2, pid, payload⟩) := fun _ _ _ _ => decodeOfEncode (.decode _) (Packet.wf_iff.2 hlen)
  have h9FFF : encodeFrame ⟨true, false, false, 0x1FFF#13, payload⟩ = 0x47#8 :: 0x9F#8 :: 0xFF#8 :: payload := by
    simp [encodeFrame, marker, headerByte1, headerByte2]
  have h4123 : encodeFrame ⟨false, true, false, 0x0123#13, payload⟩ = 0x47#8 :: 0x41#8 :: 0x23#8 :: payload := by
    simp [encodeFrame, marker, headerByte1, headerByte2]
  exact ⟨h9FFF ▸ hdec true false false 0x1FFF#13, h4123 ▸ hdec false true false 0x0123#13⟩

/-- Settles O7: a frame of 188 bytes passes the length check, so its marker alone decides; the rejected frame's answer is
DECODE's own error. -/
theorem onlyMissingMarkerIsIllegal : Obligations.OnlyMissingMarkerIsIllegal := by
  intro bytes hlen
  refine ⟨⟨fun ⟨i, hi⟩ => ?_, fun hmark => ⟨_, decodeFrame_eq_instr_iff.2 ⟨hlen.ge, hmark, rfl⟩⟩⟩,
    fun hmark s rest hpend => ?_⟩
  · obtain ⟨-, hmark, -⟩ := decodeFrame_eq_instr_iff.1 hi
    exact hmark
  · rw [Machine.step_of_pending hpend, Machine.runRequest, decode, decodeFrame_noMarker hlen.ge hmark]
    rfl

end Sys2Proof
end

section
/-! PROOFS. DECODE and SYNCHRONIZE run alone, in each case of their rules (42_decode R157; 41_synchronize R130 to R139),
and the slot write (20_memory R62). -/

namespace Sys2Proof.Machine

/-- Settles O11: the operand's frame passes both checks and reads back as the operand. -/
theorem execDecodeCompletes : Obligations.ExecDecodeCompletes := by
  intro pkt s hwf ⟨_, hparsed, hpackets⟩
  have hdec := decodeBuf_ok (off := 0) (encodeFrame_length_of_wf hwf).ge (byteAt_encodeFrame_zero pkt) hpackets hparsed
  rw [packetAt_encodeFrame hwf] at hdec
  show execDecode pkt s = _
  rw [execDecode, hdec, andThen_next]

/-- `exec`'s arm for SYNCHRONIZE in UNSYNC (41_synchronize R142). -/
theorem exec_synchronize {s : State} (hun : s.pstate = .unsync) :
    exec .synchronize s = andThen (synchronize s) fun (r, t) => .next { t with answer := .synced r } := if_pos hun

/-- Settles O13: the lowest offset is the one the search answers. -/
theorem synchronizeSucceeds : Obligations.SynchronizeSucceeds := by
  intro s w tail rest after o hun hsrc hw ht ho hmark hlow ⟨hread, hparsed, hpackets⟩
  have hfind : findSync w = some o := findSync_eq_some_iff.2 ⟨ho, hmark, hlow⟩
  rw [exec_synchronize hun, synchronize_ok hsrc hw ht hfind (by omega) (by omega) hpackets]
  rfl

/-- A window without a candidate ends the search with NoMarkerPresent (41_synchronize R134). -/
theorem syncWindow_none {s : State} (h : findSync s.win = none) : syncWindow s = .next (.err .noMarkerPresent, s) := by
  rw [syncWindow, h]

/-- Settles O14: the whole window is read, and the search answers nothing. -/
theorem synchronizeWithoutCandidate : Obligations.SynchronizeWithoutCandidate := by
  intro s w rest after hun hsrc hw hnone ⟨hread, _, _⟩
  rw [exec_synchronize hun, synchronize_of_window hsrc hw hread, syncWindow_none (findSync_eq_none_iff.2 hnone)]
  rfl

/-- A short window ends SYNCHRONIZE before its search, the number of its bytes deciding the kind (41_synchronize R132). -/
theorem synchronize_short_window {s : State} {bytes : List Byte} (hsrc : s.src = ⟨bytes, .ended⟩)
    (hlt : bytes.length < 564) (hroom : s.bytesRead + bytes.length < 2 ^ s.cfg.ctrW) :
    synchronize s = .next (.err (if bytes.length = 0 then .endOfStream else .streamTruncated),
      { s with bytesRead := s.bytesRead + bytes.length, src := ⟨[], .ended⟩ }) := by
  rw [synchronize, srcReadFull_ended hsrc hlt hroom, andThen_next]
  by_cases hz : bytes.length = 0
  · simp only [if_pos hz]
  · simp only [if_neg hz, if_pos hlt]

/-- Settles O15: the window read is short. -/
theorem synchronizeShortWindow : Obligations.SynchronizeShortWindow := by
  intro s bytes hun hsrc hlt ⟨hread, _, _⟩
  rw [exec_synchronize hun, synchronize_short_window hsrc hlt hread]
  rfl

/-- A short tail, also an empty one, ends SYNCHRONIZE before anything is decoded (41_synchronize R136). -/
theorem syncWindow_short_tail {s : State} {part : List Byte} {o : Nat} (hfind : findSync s.win = some o)
    (hsrc : s.src = ⟨part, .ended⟩) (hlt : part.length < o) (hroom : s.bytesRead + part.length < 2 ^ s.cfg.ctrW) :
    syncWindow s = .next (.err .streamTruncated,
      { s with bytesRead := s.bytesRead + part.length, src := ⟨[], .ended⟩ }) := by
  have ho : o ≠ 0 := Nat.ne_zero_of_lt hlt
  simp only [syncWindow, hfind, syncFrom, readTail, if_neg ho, srcReadFull_ended hsrc hlt hroom, andThen_next, if_pos hlt]

/-- Settles O16: the window is whole, its tail is not. -/
theorem synchronizeShortTail : Obligations.SynchronizeShortTail := by
  intro s w part o hun hsrc hw hlt ho hmark hlow ⟨hread, _, _⟩
  have hfind : findSync w = some o := findSync_eq_some_iff.2 ⟨ho, hmark, hlow⟩
  rw [exec_synchronize hun, synchronize_of_window hsrc hw (by omega),
    syncWindow_short_tail hfind rfl hlt (by rw [Nat.add_assoc]; exact hread)]
  rfl

/-- Settles O17: the arm's own guard. -/
theorem synchronizeOnlyWhenUnsync : Obligations.SynchronizeOnlyWhenUnsync := fun _ hp => if_neg hp

/-- What the host reads of a slot depends on the slot's record alone (43_host_access R169). -/
theorem readSlot_congr {s t : State} {k : Nat} (hcfg : t.cfg = s.cfg) (hresets : t.resets = s.resets)
    (hlook : slotLookup k t.slots = slotLookup k s.slots) : t.readSlot k = s.readSlot k := by
  rw [State.readSlot, State.readSlot, hcfg, hresets, hlook]

/-- Settles O44: the lookup after a write, at the slot itself and at any other. -/
theorem slotReadAfterWrite : Obligations.SlotReadAfterWrite := by
  intro s k j p hk
  refine ⟨?_, fun hj => readSlot_congr rfl rfl (slotLookup_write_ne hj p s.slots), fun h => slotWrite_rising h k p⟩
  rw [State.readSlot, State.setSlot_cfg, if_pos hk, State.setSlot_slots, slotLookup_write_self]
  rfl

end Sys2Proof.Machine
end

section
/-! PROOFS. Everything a FILL can do when it answers, said once (40_fill R110 to R120), and what follows of its result, its
record, its frame and its moves (60_exceptions R186, R189). -/

namespace Sys2Proof.Machine

/-- How a FILL of capacity `cap` ends that did not merely repeat an answer, `j` packets delivered and `src` still to read:
the control state before and after it and the kind it finishes with (40_fill R113 to R117). -/
inductive FillEnd (cap j : Nat) (src : Source) : PState → PState → ErrKind → Prop
  | unsynchronized {e : ErrKind} (hj : j = 0)
      (he : e = .noMarkerPresent ∨ (e = .streamTruncated ∨ e = .endOfStream) ∧ src.Exhausted) :
      FillEnd cap j src .unsync .unsync e
  | delivered {p : PState} (hp : p = .sync ∨ p = .unsync ∧ 3 ≤ j) (hpos : 1 ≤ j) (hle : j ≤ cap) :
      FillEnd cap j src p .sync .none
  | nothing (hj : j = 0) (hsrc : src.Exhausted) : FillEnd cap j src .sync .exhausted .endOfStream
  | faulted {p : PState} {e : ErrKind} (hp : p = .sync ∨ p = .unsync ∧ 3 ≤ j) (hlt : j < cap)
      (he : e = .noMarkerPresent ∨ e = .streamTruncated ∧ src.Exhausted) : FillEnd cap j src p .faulted e

theorem FillEnd.le_cap {cap j : Nat} {src : Source} {p q : PState} {e : ErrKind} (h : FillEnd cap j src p q e) :
    j ≤ cap := by
  cases h with
  | unsynchronized hj | nothing hj => exact hj ▸ Nat.zero_le _
  | delivered _ _ hle => exact hle
  | faulted _ hlt => exact hlt.le

/-- What step 2 adds to the `n` packets it starts with ends the whole FILL. -/
theorem LoopEnd.fillEnd {left n j : Nat} {src : Source} {p q : PState} {e : ErrKind}
    (h : LoopEnd left n j src .sync q e) (hp : p = .sync ∧ n = 0 ∨ p = .unsync ∧ 3 ≤ n) (hpos : 1 ≤ n + left) :
    FillEnd (n + left) (n + j) src p q e := by
  have hle := h.le_left
  have hstart : p = .sync ∨ p = .unsync ∧ 3 ≤ n + j := hp.imp And.left (And.imp_right (Nat.le_add_right_of_le ·))
  cases h with
  | full hj => exact .delivered hstart (by omega) (by omega)
  | dry _ hn => exact .delivered hstart hn (by omega)
  | nothing _ hn hb ha =>
    obtain ⟨rfl, -⟩ | ⟨-, h3⟩ := hp
    · exact .nothing hn ⟨hb, ha⟩
    · omega
  | truncated hj hb ha => exact .faulted hstart (by omega) (.inr ⟨rfl, hb, ha⟩)
  | badMarker hj => exact .faulted hstart (by omega) (.inl rfl)

/-- What a FILL from `s` reads and delivers: `m` bytes, the packets `ps`, `w` left in WIN and `f` in FRM. -/
structure FillBatch (s : State) (m : Nat) (ps : List Packet) (w f : List Byte) : Prop where
  cost : 188 * ps.length ≤ m
  fits : m = 0 ∨ s.bytesRead + m < 2 ^ s.cfg.ctrW
  win : w = s.win ∨ s.pstate = .unsync ∧ w.length = 564
  frm : f = s.frm ∨ f.length = 188
  wf : ∀ p ∈ ps, p.wf = true

/-- The packets of a synchronization and of the loop after it are one batch. -/
theorem afterLoop_afterThree (s : State) (w f tail : List Byte) (o m : Nat) (p0 p1 p2 : Packet) (ps : List Packet)
    (q : PState) :
    { afterLoop 3 m ps f
        ((((afterThree o tail (afterReads (564 + o) w s)).setSlot 0 p0).setSlot 1 p1).setSlot 2 p2) with pstate := q } =
      afterBatch q (564 + o + m) (p0 :: p1 :: p2 :: ps) w f (s.src.advance (564 + o + m)) s := by
  simp [afterLoop, afterBatch, afterThree, afterReads, slotWriteFrom, Source.advance_advance, Nat.mul_add, Nat.add_assoc]
  omega

theorem threePackets_wf {w tail : List Byte} {o : Nat} {p0 p1 p2 : Packet} (hw : w.length = 564) (ht : tail.length = o)
    (ho : o < 188) (h : .ok p0 p1 p2 = threePackets w o tail) : p0.wf = true ∧ p1.wf = true ∧ p2.wf = true := by
  have hlen := thirdFrame_length hw ht ho
  rw [threePackets] at h
  cases h
  exact ⟨packetAt_wf (by omega), packetAt_wf (by omega), packetAt_wf (by omega)⟩

/-- Everything a FILL can do when it answers: in EXHAUSTED and FAULTED it repeats an answer and touches nothing else
(40_fill R112); otherwise it has read and delivered one batch, and ended in one of the ways of `FillEnd`. -/
theorem execFill_cases {cap : BitVec 16} {s t : State} (h : execFill cap s = .next t) :
    (∃ e, (s.pstate = .exhausted ∧ e = .endOfStream ∨ s.pstate = .faulted ∧ e = s.resErr) ∧ t = finish 0 e s) ∨
    (∃ m ps w f q e, FillEnd cap.toNat ps.length (s.src.advance m) s.pstate q e ∧ FillBatch s m ps w f ∧
      t = finish ps.length e (afterBatch q m ps w f (s.src.advance m) s)) := by
  obtain ⟨⟨hpos, -, hthree⟩, hacc⟩ := execFill_next.1 h
  rcases fillAccepted_cases hacc with
    ⟨hp, rfl⟩ | ⟨hp, rfl⟩ | ⟨hp, hloop⟩ | ⟨hp, u, e, hsync, rfl⟩ | ⟨hp, u, p0, p1, p2, hsync, hloop⟩
  · exact .inl ⟨_, .inl ⟨hp, rfl⟩, rfl⟩
  · exact .inl ⟨_, .inr ⟨hp, rfl⟩, rfl⟩
  · obtain ⟨m, ps, f, q, e, hend, rfl, hcost, hfits, hf, hwf⟩ := fillLoop_cases hloop
    have hfill := (hp ▸ hend).fillEnd (p := .sync) (.inl ⟨rfl, rfl⟩) (by omega)
    rw [Nat.zero_add, Nat.zero_add] at hfill
    exact .inr ⟨m, ps, s.win, f, q, e, hp ▸ hfill, ⟨hcost, hfits, .inl rfl, hf, hwf⟩, by rw [Nat.zero_add]; rfl⟩
  · rcases synchronize_cases hsync with ⟨m, w, e', hr, rfl, hfits, hw, he⟩ | ⟨w, o, tail, -, -, -, hr, -⟩
    · cases hr
      exact .inr ⟨m, [], w, s.frm, .unsync, e, by rw [hp]; exact .unsynchronized rfl he,
        ⟨Nat.zero_le _, .inr hfits, hw.imp_right (⟨hp, ·⟩), .inl rfl, by simp⟩, by rw [← hp]; rfl⟩
    · cases hr
  · rcases synchronize_cases hsync with ⟨m, w, e', hr, -⟩ | ⟨w, o, tail, hw, ht, hfind, hr, rfl, hfits⟩
    · cases hr
    · have hthree := hthree hp
      have ho := (findSync_sound hfind).1
      obtain ⟨hwf0, hwf1, hwf2⟩ := threePackets_wf hw ht ho hr
      obtain ⟨m, ps, f, q, e, hend, rfl, hcost, hfits', hf, hwf⟩ := fillLoop_cases hloop
      rw [afterLoop_afterThree]
      have hfill := hend.fillEnd (p := .unsync) (.inr ⟨rfl, Nat.le_refl 3⟩) (by omega)
      rw [Nat.add_sub_cancel' hthree, Nat.add_comm 3, State.setSlot_src, State.setSlot_src, State.setSlot_src] at hfill
      refine .inr ⟨564 + o + m, p0 :: p1 :: p2 :: ps, w, f, q, e, ?_, ⟨?_, ?_, .inr ⟨hp, hw⟩, .inr ?_, ?_⟩, ?_⟩
      · rw [hp, ← Source.advance_advance]; exact hfill
      · simp only [List.length_cons]; omega
      · right; simp [afterThree, afterReads] at hfits'; omega
      · rcases hf with rfl | hf
        · exact thirdFrame_length hw ht ho
        · exact hf
      · simpa using ⟨hwf0, hwf1, hwf2, hwf⟩
      · simp only [List.length_cons, Nat.add_comm 3]

/-! ## The result, the record and the frame of a FILL -/

/-- `finish` gives its pair to the host, and leaves the record or writes it (40_fill R120). -/
theorem finish_records {s u : State} (hsame : SameRecord s u) (n : Nat) (e : ErrKind) :
    (finish n e u).answer = .filled (finish n e u).resCount (finish n e u).resErr ∧
      ((finish n e u).resErr ≠ .none → (finish n e u).RecordsNow) ∧
      ((finish n e u).resErr = .none → SameRecord s (finish n e u)) := by
  rw [finish_answer, finish_resCount, finish_resErr]
  refine ⟨rfl, fun he => recordsNow_finish he n u, ?_⟩
  rintro rfl
  exact hsame.finish n

/-- Settles O28: every way to end goes through `finish`, from a state that still holds the old record. -/
theorem fillRecordsFailure : Obligations.FillRecordsFailure := by
  intro s t cap h
  rcases execFill_cases h with ⟨e, -, rfl⟩ | ⟨m, ps, w, f, q, e, -, -, rfl⟩
  · exact finish_records ⟨rfl, rfl, rfl⟩ 0 e
  · exact finish_records (sameRecord_afterBatch ..) ps.length e

/-- The count of a batch fits RES_COUNT. -/
theorem FillEnd.resCount_toNat {cap : BitVec 16} {j : Nat} {src : Source} {p q : PState} {e : ErrKind}
    (h : FillEnd cap.toNat j src p q e) (u : State) : (finish j e u).resCount.toNat = j :=
  finish_resCount_toNat (h.le_cap.trans_lt cap.isLt) e u

/-- A batch ends in a state it can only reach from SYNC and UNSYNC (60_exceptions R189). -/
theorem FillEnd.not_terminal {cap j : Nat} {src : Source} {p q : PState} {e : ErrKind} (h : FillEnd cap j src p q e) :
    ¬(p = .exhausted ∨ p = .faulted) := by
  have hstart : ∀ {p : PState} {j : Nat}, (p = .sync ∨ p = .unsync ∧ 3 ≤ j) → ¬(p = .exhausted ∨ p = .faulted) := by
    rintro p j (rfl | ⟨rfl, -⟩) <;> decide
  cases h with
  | unsynchronized | nothing => decide
  | delivered hp | faulted hp => exact hstart hp

/-- Settles O29: a repeated answer touches nothing; a batch writes its own slots, and WIN only in a synchronization. -/
theorem fillFrame : Obligations.FillFrame := by
  intro s t cap h
  rcases execFill_cases h with ⟨e, -, rfl⟩ | ⟨m, ps, w, f, q, e, hend, hbatch, rfl⟩
  · refine ⟨fun k _ => readSlot_congr (finish_cfg ..) (finish_resets ..) (by rw [finish_slots]), finish_cfg ..,
      finish_pending .., finish_resets .., fun _ => finish_win .., fun _ => ⟨finish_frm .., finish_src .., finish_slots ..⟩⟩
  · have hdel := (delivered_afterBatch q m ps w f (s.src.advance m) s).finish ps.length e
    rw [hend.resCount_toNat]
    refine ⟨fun k hk => readSlot_congr hdel.cfg hdel.resets (hdel.kept k hk), hdel.cfg, hdel.pending, hdel.resets,
      fun hun => ?_, fun hterm => absurd hterm hend.not_terminal⟩
    rw [finish_win, afterBatch_win]
    exact hbatch.win.resolve_right fun hw => hun hw.1

theorem fillAccepted_exhausted {cap : Nat} {s : State} (hp : s.pstate = .exhausted) :
    fillAccepted cap s = .next (finish 0 .endOfStream s) := by
  rw [fillAccepted, hp]

theorem fillAccepted_faulted {cap : Nat} {s : State} (hp : s.pstate = .faulted) :
    fillAccepted cap s = .next (finish 0 s.resErr s) := by
  rw [fillAccepted, hp]

/-- `finish` with an error kind, written out (40_fill R120, 60_exceptions R186). -/
theorem finish_error {e : ErrKind} (he : e ≠ .none) (n : Nat) (s : State) : finish n e s = { s with
    resCount := BitVec.ofNat 16 n, resErr := e, answer := .filled (BitVec.ofNat 16 n) e,
    errBytesRead := s.bytesRead, errBytesParsed := s.bytesParsed, errPackets := s.packetsParsed } := by
  rw [finish, if_neg he]
  rfl

/-- `finish` with NONE, written out (40_fill R120). -/
theorem finish_none (n : Nat) (s : State) : finish n .none s = { s with
    resCount := BitVec.ofNat 16 n, resErr := .none, answer := .filled (BitVec.ofNat 16 n) .none } := rfl

/-- Settles O19: FILL's dispatch, and `finish` with the kind it repeats. -/
theorem fillInTerminalStates : Obligations.FillInTerminalStates := by
  intro s cap hpos hmax
  have hexec : s.pstate ≠ .unsync → exec (.fill cap) s = fillAccepted cap.toNat s :=
    fun hp => if_pos ⟨hpos, hmax, fun h => absurd h hp⟩
  refine ⟨fun hp => ?_, fun hp he => ?_, fun hp he => ?_⟩
  · rw [hexec (by simp [hp]), fillAccepted_exhausted hp, finish_error (by decide)]
  · rw [hexec (by simp [hp]), fillAccepted_faulted hp, finish_error he]
  · rw [hexec (by simp [hp]), fillAccepted_faulted hp, he, finish_none, ← he]

/-- Settles O24: the FILL runs the same synchronization, and `finish` follows its failure. -/
theorem fillSyncFailureStaysUnsync : Obligations.FillSyncFailureStaysUnsync := by
  intro s u cap e hun hthree hmax hexec hans
  obtain ⟨-, r, v, hsync, rfl⟩ := execSynchronize_next.1 hexec
  obtain rfl : r = .err e := Answer.synced.inj hans
  have hfill : exec (.fill cap) s = .next (finish 0 e v) := by
    rw [exec_fill, execFill, if_pos ⟨by omega, hmax, fun _ => hthree⟩]
    simp only [fillAccepted, hun, fillUnsync, hsync, andThen_next]
  rcases synchronize_cases hsync with ⟨m, w, e', hr, rfl, -, -, he⟩ | ⟨w, o, tail, -, -, -, hr, -⟩
  · cases hr
    have hkind : e = .noMarkerPresent ∨ e = .streamTruncated ∨ e = .endOfStream := he.imp_right And.left
    have hne : e ≠ .none := by rcases hkind with rfl | rfl | rfl <;> decide
    refine ⟨_, hfill, finished_finish (by decide) .., ?_, recordsNow_finish hne .., hkind, ?_, ?_, ?_, ?_, ?_⟩
    · rw [finish_pstate]; exact hun
    · exact (delivered_afterBatch s.pstate m [] w s.frm (s.src.advance m) s).finish 0 e
    · rw [finish_bytesRead]
    · rw [finish_src]
    · rw [finish_win]
    · rw [finish_frm]; rfl
  · cases hr

/-! ## The moves of PSTATE -/

/-- Settles O25: each way to end is a row of the table, with its bounds on the count. -/
theorem transitionTable : Obligations.TransitionTable := by
  refine ⟨fun s t h => ?_, fun s t r h => execRd_pstate h, fun s t cap h => ?_⟩
  · rw [exec_reset] at h
    cases h
    exact s.toReset_pstate
  rcases execFill_cases h with ⟨e, hrepeat, rfl⟩ | ⟨m, ps, w, f, q, e, hend, -, rfl⟩
  · rw [finish_pstate, finish_resCount, finish_resErr]
    obtain ⟨hp, rfl⟩ | ⟨hp, rfl⟩ := hrepeat
    · simp [hp]
    · simp [hp]
  · have hcount := hend.resCount_toNat (afterBatch q m ps w f (s.src.advance m) s)
    simp only [BitVec.le_def, BitVec.lt_def, ← BitVec.toNat_inj, hcount, finish_pstate, afterBatch_pstate, finish_resErr]
    generalize hp : s.pstate = p at hend
    cases hend with
    | unsynchronized hj he => simpa [hj] using he.imp_right And.left
    | nothing hj => simp [hj]
    | delivered hstart hpos hle =>
      rcases hstart with rfl | ⟨rfl, h3⟩
      · simp [hpos, hle]
      · simp [h3, hle]
    | faulted hstart hlt he =>
      have hkind : e = .noMarkerPresent ∨ e = .streamTruncated := he.imp_right And.left
      rcases hstart with rfl | ⟨rfl, h3⟩
      · simp [hlt, hkind]
      · simp [h3, hlt, hkind]

end Sys2Proof.Machine
end

section
/-! PROOFS. The invariant family: every step keeps the machine's invariant (10_state R26, R28 to R30; 60_exceptions R186,
R189 to R193), and what follows for the registers. -/

namespace Sys2Proof.Machine

/-! ## The parts of the invariant at the end of a FILL -/

section
variable {s : State} {m : Nat} {ps : List Packet} {w f : List Byte} (hbatch : FillBatch s m ps w f) (q : PState)
  (src : Source)
include hbatch

theorem FillBatch.countersOk (h : s.CountersOk) : (afterBatch q m ps w f src s).CountersOk := by
  obtain ⟨hparsed, hle, hread⟩ := h
  have hcost := hbatch.cost
  refine ⟨?_, ?_, ?_⟩
  · show s.bytesParsed + 188 * ps.length = 188 * (s.packetsParsed + ps.length)
    omega
  · show s.bytesParsed + 188 * ps.length ≤ s.bytesRead + m
    omega
  · show s.bytesRead + m < 2 ^ s.cfg.ctrW
    rcases hbatch.fits with rfl | hfits
    · exact hread
    · exact hfits

theorem FillBatch.buffersOk (h : s.BuffersOk) : w.length = 564 ∧ f.length = 188 := by
  obtain ⟨hwin, hfrm⟩ := h
  refine ⟨?_, ?_⟩
  · rcases hbatch.win with rfl | ⟨-, hw⟩
    · exact hwin
    · exact hw
  · rcases hbatch.frm with rfl | hf
    · exact hfrm
    · exact hf

end

/-- A slot list of the right form whose first `n` slots are written, once a FILL ends with count `n`. -/
theorem slotsOk_finish {u : State} {n : Nat} {e : ErrKind} (hrising : SlotsRising u.slots)
    (hmem : ∀ d ∈ u.slots, d.1 < u.cfg.slotsMax ∧ d.2.wf = true) (hn : (finish n e u).resCount.toNat = n)
    (hlook : ∀ k, k < n → (slotLookup k u.slots).isSome = true) (hmax : n ≤ u.cfg.slotsMax) : (finish n e u).SlotsOk := by
  rw [State.SlotsOk, hn, finish_slots, finish_cfg]
  exact ⟨hrising, hmem, hlook, hmax⟩

/-- A batch writes whole records to the slots below its length, which exist. -/
theorem slotsOk_finish_afterBatch {s : State} {m : Nat} {ps : List Packet} {w f : List Byte} {q : PState} {e : ErrKind}
    {src : Source} (h : s.SlotsOk) (hwf : ∀ p ∈ ps, p.wf = true) (hmax : ps.length ≤ s.cfg.slotsMax)
    (hn : (finish ps.length e (afterBatch q m ps w f src s)).resCount.toNat = ps.length) :
    (finish ps.length e (afterBatch q m ps w f src s)).SlotsOk := by
  obtain ⟨hrising, hmem, -, -⟩ := h
  have hdel := delivered_afterBatch q m ps w f src s
  refine slotsOk_finish (slotWriteFrom_rising 0 ps hrising) (fun d hd => ?_) hn (fun k hk => ?_) hmax
  · rcases mem_slotWriteFrom hd with ⟨-, hlt, hp⟩ | hd
    · exact ⟨by rw [hdel.cfg]; omega, hwf _ hp⟩
    · exact hmem d hd
  · rw [hdel.written k hk, List.getElem?_eq_getElem hk]
    rfl

/-- The error record stays below the counters, and equals them when the FILL that ends fails (60_exceptions R186). -/
theorem recordOk_finish {s u : State} (h : s.RecordOk) (hsame : SameRecord s u) (hread : s.bytesRead ≤ u.bytesRead)
    (hparsed : s.bytesParsed ≤ u.bytesParsed) (hcount : u.bytesParsed = 188 * u.packetsParsed) (n : Nat) (e : ErrKind) :
    (finish n e u).RecordOk := by
  obtain ⟨herr, hreadLe, hparsedLe, -⟩ := h
  obtain ⟨hr, hb, hp⟩ := hsame
  by_cases he : e = .none
  · subst he
    rw [finish_none]
    refine ⟨?_, ?_, ?_, fun hne => absurd rfl hne⟩
    · show u.errBytesParsed = 188 * u.errPackets
      rw [hb, hp, herr]
    · show u.errBytesRead ≤ u.bytesRead
      exact hr ▸ hreadLe.trans hread
    · show u.errBytesParsed ≤ u.bytesParsed
      exact hb ▸ hparsedLe.trans hparsed
  · rw [finish_error he]
    exact ⟨hcount, Nat.le_refl _, Nat.le_refl _, fun _ => ⟨rfl, rfl, rfl⟩⟩

/-- Each way to end a FILL leaves PSTATE and the result pair in agreement (60_exceptions R189). -/
theorem FillEnd.controlOk {cap j : Nat} {s u : State} {e : ErrKind} (h : FillEnd cap j u.src s.pstate u.pstate e)
    (hs : s.ControlOk) (hpackets : u.packetsParsed = s.packetsParsed + j) (hn : (finish j e u).resCount.toNat = j) :
    (finish j e u).ControlOk := by
  obtain ⟨-, -, hun, -⟩ := hs
  rw [State.ControlOk, hn, finish_resErr, finish_src, finish_pstate, finish_packetsParsed, finish_resCount, hpackets]
  generalize s.pstate = p, u.pstate = q at h hun
  cases h with
  | unsynchronized hj he =>
    obtain ⟨-, hnone⟩ := hun rfl
    subst hj
    rcases he with rfl | ⟨rfl | rfl, hsrc⟩
    · simp [hnone]
    · simpa [hnone] using hsrc
    · simpa [hnone] using hsrc
  | delivered _ hpos => simpa using hpos
  | nothing hj hsrc => subst hj; simpa using hsrc
  | faulted _ _ he =>
    rcases he with rfl | ⟨rfl, hsrc⟩
    · simp
    · simpa using hsrc

/-- Repeating the answer of EXHAUSTED or FAULTED keeps what PSTATE and the result say of each other (40_fill R112). -/
theorem controlOk_repeat {s : State} (h : s.ControlOk) {e : ErrKind}
    (he : s.pstate = .exhausted ∧ e = .endOfStream ∨ s.pstate = .faulted ∧ e = s.resErr) :
    (finish 0 e s).ControlOk := by
  obtain ⟨hbts, hended, -, -, hexh, hfault⟩ := h
  have hsame : e = s.resErr := by
    rcases he with ⟨hp, rfl⟩ | ⟨-, rfl⟩
    · exact (hexh hp).1.symm
    · rfl
  rw [State.ControlOk, finish_resErr, finish_src, finish_pstate, finish_packetsParsed, finish_resCount, hsame]
  have hterm : s.pstate ≠ .unsync ∧ s.pstate ≠ .sync := by
    rcases he with ⟨hp, -⟩ | ⟨hp, -⟩ <;> simp [hp]
  exact ⟨hbts, hended, fun hp => absurd hp hterm.1, fun hp => absurd hp hterm.2, fun hp => ⟨(hexh hp).1, rfl⟩, hfault⟩

/-! ## The invariant, instruction by instruction -/

theorem execFill_inv {cap : BitVec 16} {s t : State} (hinv : s.Inv) (h : execFill cap s = .next t) : t.Inv := by
  obtain ⟨hcfg, hhost, hcounters, hbuffers, hslots, hrecord, hcontrol⟩ := hinv
  obtain ⟨⟨-, hmax, -⟩, -⟩ := execFill_next.1 h
  rcases execFill_cases h with ⟨e, hrepeat, rfl⟩ | ⟨m, ps, w, f, q, e, hend, hbatch, rfl⟩
  · obtain ⟨hrising, hmem, -, -⟩ := hslots
    exact {
      cfg := by rwa [finish_cfg]
      hostOnly := by rwa [State.HostOnly, finish_pending]
      counters := by simpa [State.CountersOk] using hcounters
      buffers := by simpa [State.BuffersOk] using hbuffers
      slots := slotsOk_finish hrising hmem (finish_resCount_toNat (by decide) ..) (by simp) (Nat.zero_le _)
      record := recordOk_finish hrecord ⟨rfl, rfl, rfl⟩ (Nat.le_refl _) (Nat.le_refl _) hcounters.1 0 e
      control := controlOk_repeat hcontrol hrepeat }
  · have hn := hend.resCount_toNat (afterBatch q m ps w f (s.src.advance m) s)
    have hcounters' := hbatch.countersOk q (s.src.advance m) hcounters
    exact {
      cfg := by rwa [finish_cfg]
      hostOnly := by rwa [State.HostOnly, finish_pending]
      counters := by simpa [State.CountersOk] using hcounters'
      buffers := by simpa [State.BuffersOk] using hbatch.buffersOk hbuffers
      slots := slotsOk_finish_afterBatch hslots hbatch.wf (hend.le_cap.trans hmax) hn
      record := recordOk_finish hrecord (sameRecord_afterBatch ..) (Nat.le_add_right ..) (Nat.le_add_right ..)
        hcounters'.1 ps.length e
      control := FillEnd.controlOk hend hcontrol rfl hn }

/-- The invariant does not look at the answer (log 14). -/
theorem State.Inv.answered {s : State} (h : s.Inv) (a : Answer) : { s with answer := a }.Inv :=
  ⟨h.cfg, h.hostOnly, h.counters, h.buffers, h.slots, h.record, h.control⟩

/-- Taking a request in leaves host commands pending. -/
theorem State.Inv.taken {s : State} {r : Request} {rest : List Request} (h : s.Inv) (hpend : s.pending = r :: rest) :
    { s with pending := rest }.Inv :=
  ⟨h.cfg, fun r' hr' => h.hostOnly r' (hpend ▸ List.mem_cons_of_mem r hr'), h.counters, h.buffers, h.slots, h.record,
    h.control⟩

/-- The reset values meet the invariant, whatever WIN and FRM hold (10_state R37). -/
theorem inv_of_resetValues {s : State} (hcfg : s.cfg.Ok) (hhost : s.HostOnly) (hbuffers : s.BuffersOk)
    (hp : s.pstate = .unsync) (hslots : s.slots = []) (hcount : s.resCount = 0#16) (herr : s.resErr = .none)
    (hcounters : s.bytesRead = 0 ∧ s.bytesParsed = 0 ∧ s.packetsParsed = 0)
    (hrecord : s.errBytesRead = 0 ∧ s.errBytesParsed = 0 ∧ s.errPackets = 0) : s.Inv := by
  obtain ⟨hread, hparsed, hpackets⟩ := hcounters
  obtain ⟨heRead, heParsed, hePackets⟩ := hrecord
  refine ⟨hcfg, hhost, ?_, hbuffers, ?_, ?_, ?_⟩
  · simp [State.CountersOk, hread, hparsed, hpackets]
  · simp [State.SlotsOk, hslots, hcount]
  · simp [State.RecordOk, herr, heRead, heParsed, hePackets]
  · simp [State.ControlOk, hp, hcount, herr, hpackets]

theorem State.Inv.toReset {s : State} (h : s.Inv) : s.toReset.Inv :=
  inv_of_resetValues (by rw [s.toReset_cfg]; exact h.cfg) (by rw [State.HostOnly, s.toReset_pending]; exact h.hostOnly)
    s.toReset_buffer_lengths s.toReset_pstate s.toReset_slots s.toReset_resCount s.toReset_resErr
    ⟨s.toReset_bytesRead, s.toReset_bytesParsed, s.toReset_packetsParsed⟩
    ⟨s.toReset_errBytesRead, s.toReset_errBytesParsed, s.toReset_errPackets⟩

/-- Settles O42: State.reset holds the reset values and zero bytes in both buffers. -/
theorem invariantAtReset : Obligations.InvariantAtReset :=
  inv_of_resetValues (by decide) (fun _ hr => absurd hr List.not_mem_nil) ⟨List.length_replicate, List.length_replicate⟩ rfl rfl rfl rfl
    ⟨rfl, rfl, rfl⟩ ⟨rfl, rfl, rfl⟩

/-- Settles O43: a host command is FILL, RD or RESET, and each keeps the invariant. -/
theorem invariantKeptByStep : Obligations.InvariantKeptByStep := by
  intro s t hinv h
  rcases step_cases h with ⟨-, rfl⟩ | ⟨r, rest, i, hpend, hdec, hexec⟩ | ⟨bytes, rest, e, hpend, -⟩
  · exact hinv
  · have hr : r.isCommand = true := hinv.hostOnly r (by simp [hpend])
    have htaken := hinv.taken hpend
    obtain ⟨cap, rfl⟩ | ⟨reg, rfl⟩ | rfl := decode_isCommand hr hdec
    · exact execFill_inv htaken hexec
    · rw [exec_rd] at hexec
      cases hexec
      exact htaken.answered _
    · rw [exec_reset] at hexec
      cases hexec
      exact htaken.toReset
  · have hframe := hinv.hostOnly (.frame bytes) (by simp [hpend])
    cases hframe

end Sys2Proof.Machine
end

section
/-! PROOFS. What single steps keep: the registers' width (30_encoding R93), the terminal states (60_exceptions R193) and
the count of parsed bytes (10_state R26). -/

namespace Sys2Proof.Machine

/-- Settles O36: the packed registers have at most 19 bits, the counters and the record are bounded by bytesRead, and CAP by
the parameter's own bound. -/
theorem registersFitCounterWidth : Obligations.RegistersFitCounterWidth := by
  intro s r ⟨⟨hwidth, _, hmax⟩, _, ⟨hparsed, hle, hread⟩, _, _, ⟨herr, herrRead, herrParsed, _⟩, _⟩
  have hbits : 2 ^ 19 ≤ 2 ^ s.cfg.ctrW := Nat.pow_le_pow_right (by decide) hwidth
  cases r with
  | status => exact (s.statusWord.isLt.trans_le (by decide)).trans_le hbits
  | result => exact s.resultWord.isLt.trans_le hbits
  | bytesRead => exact hread
  | bytesParsed => exact hle.trans_lt hread
  | packetsParsed => show s.packetsParsed < _; omega
  | errBytesRead => exact herrRead.trans_lt hread
  | errBytesParsed => exact (herrParsed.trans hle).trans_lt hread
  | errPackets => show s.errPackets < _; omega
  | cap => exact (hmax.trans_lt (by decide)).trans_le hbits

/-- No instruction but RESET moves PSTATE out of EXHAUSTED and FAULTED (60_exceptions R193). -/
theorem exec_terminal_pstate {i : Instr} {s t : State} (hi : i ≠ .reset) (hp : s.pstate = .exhausted ∨ s.pstate = .faulted)
    (h : exec i s = .next t) : t.pstate = s.pstate := by
  cases i with
  | decode pkt => rcases execDecode_cases h with ⟨e, rfl⟩ | ⟨p, rfl⟩ <;> rfl
  | synchronize =>
    obtain ⟨hun, -⟩ := execSynchronize_next.1 h
    simp [hun] at hp
  | fill cap =>
    rcases execFill_cases h with ⟨e, -, rfl⟩ | ⟨m, ps, w, f, q, e, hend, -⟩
    · exact finish_pstate ..
    · exact absurd hp hend.not_terminal
  | rd reg => exact execRd_pstate h
  | reset => exact absurd rfl hi

/-- Settles O39: only the step that runs RESET can leave, and one word alone decodes to it. -/
theorem onlyResetLeavesTerminalStates : Obligations.OnlyResetLeavesTerminalStates := by
  intro s t hp h hleave
  rcases step_cases h with ⟨-, rfl⟩ | ⟨r, rest, i, hpend, hdec, hexec⟩ | ⟨bytes, rest, e, -, rfl⟩
  · exact absurd rfl hleave
  · by_cases hi : i = .reset
    · subst hi
      exact ⟨rest, by rw [hpend, decode_reset hdec]⟩
    · exact absurd (exec_terminal_pstate (s := { s with pending := rest }) hi hp hexec) hleave
  · exact absurd rfl hleave

/-! ## Parsed bytes and packets -/

/-- SYNCHRONIZE counts its three packets or none (41_synchronize R137). -/
theorem synchronize_countedPackets {s t : State} {r : SyncResult} (h : synchronize s = .next (r, t)) :
    ∃ j, CountedPackets j s t := by
  cases r with
  | err e => exact ⟨0, synchronize_err_countedPackets h⟩
  | ok p0 p1 p2 => exact ⟨3, synchronize_ok_countedPackets h⟩

/-- Every instruction but RESET counts 188 parsed bytes with each packet (42_decode R156). -/
theorem exec_countedPackets {i : Instr} {s t : State} (hi : i ≠ .reset) (h : exec i s = .next t) :
    ∃ j, CountedPackets j s t := by
  cases i with
  | decode pkt =>
    rcases execDecode_cases h with ⟨e, rfl⟩ | ⟨p, rfl⟩
    · exact ⟨0, rfl, rfl⟩
    · exact ⟨1, rfl, rfl⟩
  | synchronize =>
    obtain ⟨-, r, u, hsync, rfl⟩ := execSynchronize_next.1 h
    obtain ⟨j, hpackets, hparsed⟩ := synchronize_countedPackets hsync
    exact ⟨j, hpackets, hparsed⟩
  | fill cap => exact ⟨_, execFill_countedPackets h⟩
  | rd reg =>
    obtain ⟨-, hparsed, hpackets⟩ := execRd_sameCounters h
    exact ⟨0, hpackets, hparsed⟩
  | reset => exact absurd rfl hi

theorem exec_parsed_eq {i : Instr} {s t : State} (hs : s.bytesParsed = s.packetsParsed * 188) (h : exec i s = .next t) :
    t.bytesParsed = t.packetsParsed * 188 := by
  by_cases hi : i = .reset
  · subst hi
    rw [exec_reset] at h
    cases h
    rw [s.toReset_bytesParsed, s.toReset_packetsParsed]
  · obtain ⟨j, hpackets, hparsed⟩ := exec_countedPackets hi h
    omega

/-- A FILL parses no byte it has not read. -/
theorem execFill_parsed_le {cap : BitVec 16} {s t : State} (hle : s.bytesParsed ≤ s.bytesRead)
    (h : execFill cap s = .next t) : t.bytesParsed ≤ t.bytesRead := by
  rcases execFill_cases h with ⟨e, -, rfl⟩ | ⟨m, ps, w, f, q, e, -, hbatch, rfl⟩
  · rwa [finish_bytesParsed, finish_bytesRead]
  · rw [finish_bytesParsed, finish_bytesRead]
    exact Nat.add_le_add hle hbatch.cost

/-- A host command leaves no more bytes parsed than read. -/
theorem exec_command_parsed_le {r : Request} {i : Instr} {s t : State} (hr : r.isCommand = true)
    (hdec : decode r = .instr i) (hle : s.bytesParsed ≤ s.bytesRead) (h : exec i s = .next t) :
    t.bytesParsed ≤ t.bytesRead := by
  obtain ⟨cap, rfl⟩ | ⟨reg, rfl⟩ | rfl := decode_isCommand hr hdec
  · exact execFill_parsed_le hle h
  · obtain ⟨hread, hparsed, -⟩ := execRd_sameCounters h
    rwa [hread, hparsed]
  · rw [exec_reset] at h
    cases h
    rw [s.toReset_bytesParsed]
    exact Nat.zero_le _

/-- Settles O41: the first half instruction by instruction, the second for host commands. -/
theorem parsedBytesMatchPackets : Obligations.ParsedBytesMatchPackets := by
  intro s t hs h
  rcases step_cases h with ⟨-, rfl⟩ | ⟨r, rest, i, hpend, hdec, hexec⟩ | ⟨bytes, rest, e, -, rfl⟩
  · exact ⟨hs, fun _ hle => hle⟩
  · refine ⟨exec_parsed_eq (s := { s with pending := rest }) hs hexec, fun hhost hle => ?_⟩
    have hr : r.isCommand = true := hhost r (by simp [hpend])
    exact exec_command_parsed_le (s := { s with pending := rest }) hr hdec hle hexec
  · exact ⟨hs, fun _ hle => hle⟩

end Sys2Proof.Machine
end

section
/-! PROOFS. The counters' guard (00_scope R6): an operation is refused for a counter alone, and one that answers has kept
every counter in its width. -/

namespace Sys2Proof.Machine

/-- The operation that ended as `o` began in `s` and, where it answered, ended in a state read off by `state`: it is refused
for a counter alone, and if the counters fit before it they fit after it. -/
structure Guarded {α : Type} (s : State) (state : α → State) (o : Outcome α) : Prop where
  refused : ∀ {r}, o = .refused r → r = .counterOverflow
  fits : ∀ {a}, o = .next a → s.CountersFit → (state a).CountersFit

section
variable {α β : Type} {s u : State} {state : α → State} {o : Outcome α}

theorem Guarded.next {a : α} (h : s.CountersFit → (state a).CountersFit) : Guarded s state (.next a) where
  refused h := nomatch h
  fits := by rintro _ ⟨⟩; exact h

/-- An operation is guarded when its parts are. -/
theorem Guarded.andThen {state' : β → State} {k : α → Outcome β} (ho : Guarded s state o)
    (hk : ∀ a, Guarded (state a) state' (k a)) : Guarded s state' (andThen o k) where
  refused h := by
    obtain h | ⟨a, -, h⟩ := andThen_eq_refused.1 h
    · exact ho.refused h
    · exact (hk a).refused h
  fits h hs := by
    obtain ⟨a, hoa, h⟩ := andThen_eq_next.1 h
    exact (hk a).fits h (ho.fits hoa hs)

/-- What no counter sees may be written before it. -/
theorem Guarded.after (h : Guarded u state o) (hsu : s.CountersFit → u.CountersFit) : Guarded s state o where
  refused := h.refused
  fits ho hs := h.fits ho (hsu hs)

end

/-! ## Reads and decodes -/

theorem guarded_srcReadFull (n : Nat) (s : State) : Guarded s Prod.snd (srcReadFull n s) where
  refused := srcReadFull_refused
  fits := by
    rintro ⟨bytes, t⟩ h ⟨-, hparsed, hpackets⟩
    obtain ⟨-, hread, rfl⟩ := srcReadFull_next.1 h
    exact ⟨hread, hparsed, hpackets⟩

theorem guarded_readTail (o : Nat) (s : State) : Guarded s Prod.snd (readTail o s) := by
  unfold readTail
  split
  · exact .next id
  · exact guarded_srcReadFull o s

theorem guarded_decodeBuf (buf : List Byte) (off : Nat) (s : State) : Guarded s Prod.snd (decodeBuf buf off s) where
  refused := decodeBuf_refused
  fits := by
    rintro ⟨r, t⟩ h hs
    rcases decodeBuf_next.1 h with ⟨-, -, rfl⟩ | ⟨-, -, -, rfl⟩ | ⟨-, -, hpackets, hparsed, -, rfl⟩
    · exact hs
    · exact hs
    · exact ⟨hs.1, hparsed, hpackets⟩

/-! ## SYNCHRONIZE -/

theorem guarded_decodeThree (o : Nat) (tail : List Byte) (s : State) : Guarded s Prod.snd (decodeThree o tail s) := by
  refine (guarded_decodeBuf ..).andThen fun ⟨r0, s0⟩ => ?_
  cases r0 with
  | err e => exact .next id
  | ok p0 =>
    refine (guarded_decodeBuf ..).andThen fun ⟨r1, s1⟩ => ?_
    cases r1 with
    | err e => exact .next id
    | ok p1 =>
      refine ((guarded_decodeBuf ..).andThen fun ⟨r2, s2⟩ => ?_).after id
      cases r2 with
      | err e => exact .next id
      | ok p2 => exact .next id

theorem guarded_syncWindow (s : State) : Guarded s Prod.snd (syncWindow s) := by
  unfold syncWindow
  split
  · exact .next id
  · refine (guarded_readTail ..).andThen fun ⟨tail, t⟩ => ?_
    dsimp only
    split
    · exact .next id
    · exact guarded_decodeThree ..

theorem guarded_synchronize (s : State) : Guarded s Prod.snd (synchronize s) := by
  refine (guarded_srcReadFull ..).andThen fun ⟨bytes, t⟩ => ?_
  dsimp only
  split
  · exact .next id
  split
  · exact .next id
  · exact (guarded_syncWindow _).after id

/-! ## FILL -/

theorem guarded_finish {s u : State} (n : Nat) (e : ErrKind) (hsu : s.CountersFit → u.CountersFit) :
    Guarded s id (.next (finish n e u)) :=
  .next fun hs => by simpa [State.CountersFit] using hsu hs

theorem guarded_fillLoop (left n : Nat) (s : State) : Guarded s id (fillLoop left n s) := by
  induction left generalizing n s with
  | zero => exact guarded_finish n .none id
  | succ left ih =>
    rw [fillLoop]
    refine (guarded_srcReadFull ..).andThen fun ⟨bytes, t⟩ => ?_
    dsimp only
    split
    · split
      · exact guarded_finish n .none id
      · exact guarded_finish 0 .endOfStream id
    split
    · exact guarded_finish n .streamTruncated id
    refine ((guarded_decodeBuf ..).andThen fun ⟨r, u⟩ => ?_).after id
    cases r with
    | err e => exact guarded_finish n e id
    | ok p => exact (ih ..).after id

theorem guarded_fillAccepted (cap : Nat) (s : State) : Guarded s id (fillAccepted cap s) := by
  unfold fillAccepted
  split
  · exact guarded_finish 0 .endOfStream id
  · exact guarded_finish 0 s.resErr id
  · exact guarded_fillLoop ..
  · refine (guarded_synchronize s).andThen fun ⟨r, t⟩ => ?_
    cases r with
    | err e => exact guarded_finish 0 e id
    | ok p0 p1 p2 => exact (guarded_fillLoop ..).after id

/-- Settles O18: within the contract nothing but a counter refuses a FILL. -/
theorem fillInContractIsAccepted : Obligations.FillInContractIsAccepted := by
  intro s cap hallow h
  rw [exec_fill, execFill, if_pos hallow] at h
  have hcounter := (guarded_fillAccepted cap.toNat s).refused h
  cases hcounter

/-- Settles O45: DECODE, SYNCHRONIZE and FILL are guarded; RD moves no counter, and RESET clears them. -/
theorem countersNeverPassWidth : Obligations.CountersNeverPassWidth := by
  intro s t i hs h
  cases i with
  | decode pkt =>
    obtain ⟨⟨r, u⟩, hdec, h⟩ := andThen_eq_next.1 h
    cases h
    exact (guarded_decodeBuf ..).fits hdec hs
  | synchronize =>
    obtain ⟨-, r, u, hsync, rfl⟩ := execSynchronize_next.1 h
    exact (guarded_synchronize s).fits hsync hs
  | fill cap => exact (guarded_fillAccepted ..).fits (execFill_next.1 h).2 hs
  | rd reg => cases h; exact hs
  | reset =>
    rw [exec_reset] at h
    cases h
    simp [State.CountersFit]

end Sys2Proof.Machine
end

section
/-! PROOFS. Operations on a source that answers every read (70 R222): they return while the counters have room, and are
refused where a counter has none (00_scope R6). -/

namespace Sys2Proof.Machine

/-! ## One frame of step 2, on any source -/

/-- PSTATE where step 2 stops at a read of `len` bytes that is no good frame, `n` packets having been produced
(40_fill R115 to R117). -/
def stopState (n len : Nat) (p : PState) : PState :=
  if len = 0 then if 1 ≤ n then p else .exhausted else .faulted

/-- The kind FILL ends with there. -/
def stopKind (n len : Nat) : ErrKind :=
  if len = 0 then if 1 ≤ n then .none else .endOfStream else if len < 188 then .streamTruncated else .noMarkerPresent

/-- FRM there: a whole frame went into it before its decode failed, a short read did not. -/
def stopFrame (bytes frm : List Byte) : List Byte := if bytes.length < 188 then frm else bytes

/-- FILL's end at a read of `bytes` that is no good frame. -/
def stopAt (n : Nat) (bytes : List Byte) (s : State) : State :=
  finish n (stopKind n bytes.length)
    { afterLoop n bytes.length [] (stopFrame bytes s.frm) s with pstate := stopState n bytes.length s.pstate }

/-- DECODE of a good frame whose packet does not fit a counter. -/
theorem decodeBuf_overflow {buf : List Byte} {off : Nat} {s : State} (hlen : off + 188 ≤ buf.length)
    (hmark : byteAt buf off = marker) (hover : 2 ^ s.cfg.ctrW ≤ s.packetsParsed + 1 ∨ 2 ^ s.cfg.ctrW ≤ s.bytesParsed + 188) :
    decodeBuf buf off s = .refused .counterOverflow := by
  rw [decodeBuf_good hlen hmark, countPacket, if_neg (by omega), andThen_refused]

section
variable {left n : Nat} {s : State} {bytes : List Byte}

theorem fillLoop_blocks (htake : s.src.take 188 = none) : fillLoop (left + 1) n s = .fault .sourceBlocked := by
  rw [fillLoop, srcReadFull, htake]
  rfl

/-- A good frame with room for it is delivered, and step 2 goes on (40_fill R114). -/
theorem fillLoop_good (htake : s.src.take 188 = some bytes) (hgood : GoodFrame bytes) (hroom : s.Room 188 1) :
    fillLoop (left + 1) n s = fillLoop left (n + 1) (afterLoop n 188 [packetAt bytes 0] bytes s) := by
  obtain ⟨hlen, hmark⟩ := hgood
  obtain ⟨hread, hparsed, hpackets⟩ := hroom
  rw [fillLoop, srcReadFull_next.2 ⟨htake, hlen ▸ hread, rfl⟩, andThen_next]
  simp only [hlen, Nat.lt_irrefl, if_false]
  rw [if_neg (by decide), decodeBuf_ok hlen.ge hmark (by exact hpackets) (by exact hparsed), andThen_next]
  rfl

/-- Any other read ends FILL (40_fill R115 to R117). -/
theorem fillLoop_stops (htake : s.src.take 188 = some bytes) (hbad : ¬GoodFrame bytes)
    (hread : s.bytesRead + bytes.length < 2 ^ s.cfg.ctrW) : fillLoop (left + 1) n s = .next (stopAt n bytes s) := by
  rw [fillLoop, srcReadFull_next.2 ⟨htake, hread, rfl⟩, andThen_next]
  unfold stopAt stopKind stopState stopFrame
  by_cases hz : bytes.length = 0
  · by_cases hn : 1 ≤ n
    · simp [hz, hn, afterLoop, slotWriteFrom]
    · obtain rfl : n = 0 := by omega
      simp [hz, afterLoop, slotWriteFrom]
  by_cases hlt : bytes.length < 188
  · simp [hz, hlt, afterLoop, slotWriteFrom]
  · have hlen : bytes.length = 188 := Nat.le_antisymm (Source.take_length_le htake) (Nat.not_lt.1 hlt)
    have hmark : byteAt bytes 0 ≠ marker := fun h => hbad ⟨hlen, h⟩
    simp only [if_neg hz, if_neg hlt, decodeBuf_noMarker hlen.ge hmark, andThen_next]
    simp [afterLoop, slotWriteFrom]

/-- A frame that does not fit a counter is refused (00_scope R6). -/
theorem fillLoop_overflow (h : s.FrameOverflows) : fillLoop (left + 1) n s = .refused .counterOverflow := by
  obtain ⟨bytes, htake, hover⟩ := h
  by_cases hread : 2 ^ s.cfg.ctrW ≤ s.bytesRead + bytes.length
  · rw [fillLoop, srcReadFull_overflow htake hread, andThen_refused]
  · obtain ⟨⟨hlen, hmark⟩, hover⟩ := hover.resolve_left hread
    rw [fillLoop, srcReadFull_next.2 ⟨htake, Nat.not_le.1 hread, rfl⟩, andThen_next]
    simp only [hlen, Nat.lt_irrefl, if_false]
    rw [if_neg (by decide), decodeBuf_overflow hlen.ge hmark (by exact hover), andThen_refused]

/-- A read that fits its counter, and a packet that fits its counters where the read is a good frame. -/
theorem room_of_not_frameOverflows (htake : s.src.take 188 = some bytes) (h : ¬s.FrameOverflows) :
    s.bytesRead + bytes.length < 2 ^ s.cfg.ctrW ∧ (GoodFrame bytes → s.Room 188 1) := by
  have hread : s.bytesRead + bytes.length < 2 ^ s.cfg.ctrW :=
    Nat.not_le.1 fun hover => h ⟨bytes, htake, .inl hover⟩
  refine ⟨hread, fun hgood => ?_⟩
  have hfit : ¬(2 ^ s.cfg.ctrW ≤ s.packetsParsed + 1 ∨ 2 ^ s.cfg.ctrW ≤ s.bytesParsed + 188) :=
    fun hover => h ⟨bytes, htake, .inr ⟨hgood, hover⟩⟩
  have hlen := hgood.1
  exact ⟨by omega, by omega, by omega⟩

end

/-! ## The reads and the decodes of a synchronization, on any source -/

/-- A short read has taken all there was and will be (20_memory R52). -/
theorem Source.eq_of_take_short {n : Nat} {src : Source} {bytes : List Byte} (h : src.take n = some bytes)
    (hlt : bytes.length < n) : src = ⟨bytes, .ended⟩ := by
  obtain ⟨rfl, hafter⟩ := Source.take_short h hlt
  rw [← hafter]

/-- A tail read at offset 0 is a read of no byte (41_synchronize R135). -/
theorem readTail_eq {o : Nat} {s : State} (hroom : s.bytesRead < 2 ^ s.cfg.ctrW) : readTail o s = srcReadFull o s := by
  unfold readTail
  split
  · rename_i ho
    subst ho
    exact (srcReadFull_next.2 ⟨Source.take_of_le (Nat.zero_le _), hroom, by simp⟩).symm
  · rfl

/-- A whole window takes SYNCHRONIZE to its search, listed or not (41_synchronize R131, R133). -/
theorem synchronize_of_take {s : State} {w : List Byte} (htake : s.src.take 564 = some w) (hw : w.length = 564)
    (hroom : s.bytesRead + 564 < 2 ^ s.cfg.ctrW) : synchronize s = syncWindow (afterReads 564 w s) := by
  have hread := srcReadFull_next.2 ⟨htake, hw ▸ hroom, rfl⟩
  simp only [synchronize, hread, andThen_next, hw, Nat.lt_irrefl, if_false]
  exact if_neg (by decide)

section
variable {s : State} {o : Nat} {tail : List Byte} (hwin : s.win.length = 564) (hfind : findSync s.win = some o)
  (htake : s.src.take o = some tail)
include hwin hfind htake

/-- A whole tail takes the search to the three decodes, which only a counter can stop (41_synchronize R137). -/
theorem syncWindow_of_tail (ht : tail.length = o) (hroom : s.bytesRead + o < 2 ^ s.cfg.ctrW) :
    syncWindow s =
      if s.packetsParsed + 3 < 2 ^ s.cfg.ctrW ∧ s.bytesParsed + 564 < 2 ^ s.cfg.ctrW then
        .next (threePackets s.win o tail, afterThree o tail (afterReads o s.win s))
      else .refused .counterOverflow := by
  have hread := srcReadFull_next.2 ⟨htake, ht ▸ hroom, rfl⟩
  simp only [syncWindow, hfind, syncFrom, readTail_eq (Nat.lt_of_le_of_lt (Nat.le_add_right ..) hroom), hread, andThen_next,
    ht, Nat.lt_irrefl, if_false]
  exact decodeThree_eq hwin ht hfind

/-- The tail read, or one of the three packets, does not fit its counter (00_scope R6). -/
theorem syncWindow_overflow (hroom : s.bytesRead < 2 ^ s.cfg.ctrW)
    (hover : 2 ^ s.cfg.ctrW ≤ s.bytesRead + tail.length ∨
      tail.length = o ∧ (2 ^ s.cfg.ctrW ≤ s.packetsParsed + 3 ∨ 2 ^ s.cfg.ctrW ≤ s.bytesParsed + 564)) :
    syncWindow s = .refused .counterOverflow := by
  by_cases hread : 2 ^ s.cfg.ctrW ≤ s.bytesRead + tail.length
  · simp only [syncWindow, hfind, syncFrom, readTail_eq hroom, srcReadFull_overflow htake hread, andThen_refused]
  · obtain ⟨ht, hpackets⟩ := hover.resolve_left hread
    rw [syncWindow_of_tail hwin hfind htake ht (by omega), if_neg (by omega)]

end

/-! ## SYNCHRONIZE and FILL return -/

theorem syncWindow_answers {s : State} (hwin : s.win.length = 564) (hsrc : s.src.after ≠ .silent) (hroom : s.Room 187 3) :
    ∃ a, syncWindow s = .next a := by
  obtain ⟨hread, hparsed, hpackets⟩ := hroom
  cases hfind : findSync s.win with
  | none => exact ⟨_, syncWindow_none hfind⟩
  | some o =>
    have ho := (findSync_sound hfind).1
    obtain ⟨tail, htake⟩ := Source.take_isSome (n := o) hsrc
    rcases Nat.lt_or_eq_of_le (Source.take_length_le htake) with hlt | ht
    · exact ⟨_, syncWindow_short_tail hfind (Source.eq_of_take_short htake hlt) hlt (by omega)⟩
    · exact ⟨_, by rw [syncWindow_of_tail hwin hfind htake ht (by omega), if_pos ⟨hpackets, hparsed⟩]⟩

theorem synchronize_answers {s : State} (hsrc : s.src.after ≠ .silent) (hroom : s.Room 751 3) :
    ∃ a, synchronize s = .next a := by
  obtain ⟨hread, hparsed, hpackets⟩ := hroom
  obtain ⟨w, htake⟩ := Source.take_isSome (n := 564) hsrc
  rcases Nat.lt_or_eq_of_le (Source.take_length_le htake) with hlt | hw
  · exact ⟨_, synchronize_short_window (Source.eq_of_take_short htake hlt) hlt (by omega)⟩
  · rw [synchronize_of_take htake hw (by omega)]
    refine syncWindow_answers hw (Source.advance_after_silent hsrc) ⟨?_, hparsed, hpackets⟩
    show s.bytesRead + 564 + 187 < 2 ^ s.cfg.ctrW
    omega

theorem fillLoop_answers {left n : Nat} {s : State} (hsrc : s.src.after ≠ .silent) (hroom : s.Room (188 * left) left) :
    ∃ t, fillLoop left n s = .next t := by
  induction left generalizing n s with
  | zero => exact ⟨_, rfl⟩
  | succ left ih =>
    obtain ⟨hread, hparsed, hpackets⟩ := hroom
    obtain ⟨bytes, htake⟩ := Source.take_isSome (n := 188) hsrc
    have hle := Source.take_length_le htake
    by_cases hgood : GoodFrame bytes
    · rw [fillLoop_good htake hgood ⟨by omega, by omega, by omega⟩]
      refine ih (Source.advance_after_silent hsrc) ⟨?_, ?_, ?_⟩
      · show s.bytesRead + 188 + 188 * left < 2 ^ s.cfg.ctrW
        omega
      · show s.bytesParsed + 188 + 188 * left < 2 ^ s.cfg.ctrW
        omega
      · show s.packetsParsed + 1 + left < 2 ^ s.cfg.ctrW
        omega
    · exact ⟨_, fillLoop_stops htake hgood (by omega)⟩

theorem fillUnsync_answers {cap : Nat} {s : State} (hcap : 3 ≤ cap) (hsrc : s.src.after ≠ .silent)
    (hroom : s.Room (751 + 188 * cap) (3 + cap)) : ∃ t, fillUnsync cap s = .next t := by
  obtain ⟨hread, hparsed, hpackets⟩ := hroom
  obtain ⟨⟨r, u⟩, hsync⟩ := synchronize_answers hsrc ⟨by omega, by omega, by omega⟩
  rw [fillUnsync, hsync, andThen_next]
  cases r with
  | err e => exact ⟨_, rfl⟩
  | ok p0 p1 p2 =>
    rcases synchronize_cases hsync with ⟨m, w, e, hr, -⟩ | ⟨w, o, tail, -, -, hfind, -, rfl, -⟩
    · cases hr
    · have ho := (findSync_sound hfind).1
      refine fillLoop_answers (Source.advance_after_silent hsrc) ⟨?_, ?_, ?_⟩
      · show s.bytesRead + (564 + o) + 188 * (cap - 3) < 2 ^ s.cfg.ctrW
        omega
      · show s.bytesParsed + 564 + 188 * (cap - 3) < 2 ^ s.cfg.ctrW
        omega
      · show s.packetsParsed + 3 + (cap - 3) < 2 ^ s.cfg.ctrW
        omega

/-- Settles O31: every read of a source that is not silent answers, and the room covers the longest run of reads. -/
theorem operationsReturnWhenSourceAnswers : Obligations.OperationsReturnWhenSourceAnswers := by
  refine ⟨fun s cap hallow hsrc hroom => ?_, fun s hun hsrc hroom => ?_⟩
  · obtain ⟨hread, hparsed, hpackets⟩ := hroom
    rw [exec_fill, execFill, if_pos hallow]
    cases hp : s.pstate with
    | exhausted => exact ⟨_, fillAccepted_exhausted hp⟩
    | faulted => exact ⟨_, fillAccepted_faulted hp⟩
    | sync =>
      rw [fillAccepted, hp]
      exact fillLoop_answers hsrc ⟨by omega, by omega, by omega⟩
    | unsync =>
      obtain ⟨-, -, hthree⟩ := hallow
      rw [fillAccepted, hp]
      exact fillUnsync_answers (hthree hp) hsrc ⟨hread, hparsed, hpackets⟩
  · obtain ⟨a, hsync⟩ := synchronize_answers hsrc hroom
    exact ⟨_, by rw [exec_synchronize hun, hsync, andThen_next]⟩

/-! ## Where a counter has no room -/

theorem synchronize_overflow {s : State} (h : s.SyncOverflows) : synchronize s = .refused .counterOverflow := by
  obtain ⟨w, htake, hover⟩ := h
  by_cases hread : 2 ^ s.cfg.ctrW ≤ s.bytesRead + w.length
  · rw [synchronize, srcReadFull_overflow htake hread, andThen_refused]
  · obtain ⟨o, tail, hw, ho, hmark, hlow, htail, hover⟩ := hover.resolve_left hread
    rw [hw, Nat.not_le] at hread
    rw [synchronize_of_take htake hw hread]
    exact syncWindow_overflow (s := afterReads 564 w s) hw (findSync_eq_some_iff.2 ⟨ho, hmark, hlow⟩) htail hread hover

/-- A FILL in UNSYNC is refused as its synchronization is (40_fill R113). -/
theorem execFill_synchronize_refused {cap : BitVec 16} {s : State} {r : Refusal} (hallow : FillAllowed cap.toNat s)
    (hun : s.pstate = .unsync) (hsync : synchronize s = .refused r) : execFill cap s = .refused r := by
  rw [execFill, if_pos hallow]
  simp only [fillAccepted, hun, fillUnsync, hsync, andThen_refused]

/-- Settles O32: the read or the packet that does not fit stops its operation; a longer FILL reaches it where a shorter one
has filled its slots. -/
theorem counterOverflowRefused : Obligations.CounterOverflowRefused := by
  refine ⟨fun s hun hover => ⟨?_, fun cap hallow => ?_⟩, fun s cap hp hallow hover => ?_,
    fun s t a c h he hcount hac hmax hover => ?_, fun s pkt hwf hover => ?_⟩
  · rw [exec_synchronize hun, synchronize_overflow hover, andThen_refused]
  · exact execFill_synchronize_refused hallow hun (synchronize_overflow hover)
  · rw [exec_fill, execFill, if_pos hallow, fillAccepted, hp]
    obtain ⟨left, hleft⟩ := Nat.exists_eq_succ_of_ne_zero (Nat.ne_of_gt hallow.1)
    rw [hleft]
    exact fillLoop_overflow hover
  · obtain ⟨v, rfl, -, hlonger⟩ := execFill_extends h he hcount
    obtain ⟨left, hleft⟩ := Nat.exists_eq_succ_of_ne_zero (Nat.sub_ne_zero_of_lt hac)
    rw [exec_fill, hlonger c hac.le hmax, hleft]
    refine fillLoop_overflow ?_
    simpa only [State.FrameOverflows, finish_src, finish_cfg, finish_bytesRead, finish_packetsParsed,
      finish_bytesParsed] using hover
  · show execDecode pkt s = _
    rw [execDecode, decodeBuf_overflow (encodeFrame_length_of_wf hwf).ge (byteAt_encodeFrame_zero pkt) hover,
      andThen_refused]

end Sys2Proof.Machine
end

section
/-! PROOFS. Two FILLs side by side: one batch cut in two (40_fill R124 (c)), and two streams with the same markers
(30_encoding R89). -/

namespace Sys2Proof.Machine

/-- `s'` has the parameters, the control state and the counters of `s`. -/
structure SameControl (s s' : State) : Prop extends SameCounters s s' where
  cfg : s'.cfg = s.cfg
  pstate : s'.pstate = s.pstate

theorem SameControl.symm {s s' : State} (h : SameControl s s') : SameControl s' s :=
  ⟨⟨h.bytesRead.symm, h.bytesParsed.symm, h.packetsParsed.symm⟩, h.cfg.symm, h.pstate.symm⟩

/-- It still has them when both have read and delivered as much. -/
theorem SameControl.afterLoop {s s' : State} (h : SameControl s s') (n n' m : Nat) {ps ps' : List Packet}
    (hlen : ps'.length = ps.length) (f f' : List Byte) :
    SameControl (afterLoop n m ps f s) (afterLoop n' m ps' f' s') where
  bytesRead := congrArg (· + m) h.bytesRead
  bytesParsed := congrArg₂ (· + 188 * ·) h.bytesParsed hlen
  packetsParsed := congrArg₂ (· + ·) h.packetsParsed hlen
  cfg := h.cfg
  pstate := h.pstate

/-! ## A batch cut in two -/

/-- `s'` stands at the same point of the same stream as `s`, with the same counters: they may differ in the slots, the result,
the record and the answer. -/
structure SameStream (s s' : State) : Prop extends SameControl s s' where
  frm : s'.frm = s.frm
  src : s'.src = s.src

/-- What a FILL ends with that goes on after `n' ≥ 1` packets, where one that begins there ends with `e`: with packets
produced, a dry source is no error (40_fill R115). -/
def resumedKind (e : ErrKind) : ErrKind := if e = .endOfStream then .none else e

/-- The control state it ends in, where the other ends in `q` with `e`. -/
def resumedState (p q : PState) (e : ErrKind) : PState := if e = .endOfStream then p else q

theorem stopKind_resumed {n' : Nat} (hn' : 1 ≤ n') (n len : Nat) : stopKind n' len = resumedKind (stopKind n len) := by
  unfold resumedKind stopKind
  by_cases hz : len = 0
  · by_cases hn : 1 ≤ n <;> simp [hz, hn, hn']
  · by_cases hlt : len < 188 <;> simp [hz, hlt]

theorem stopState_resumed {n' : Nat} (hn' : 1 ≤ n') (n len : Nat) (p : PState) :
    stopState n' len p = resumedState p (stopState n len p) (stopKind n len) := by
  unfold resumedState stopKind stopState
  by_cases hz : len = 0
  · by_cases hn : 1 ≤ n <;> simp [hz, hn, hn']
  · by_cases hlt : len < 188 <;> simp [hz, hlt]

/-- A frame delivered first joins the batch of the frames after it. -/
theorem afterLoop_afterLoop (n k m : Nat) (p : Packet) (ps : List Packet) (g f : List Byte) (s : State) :
    afterLoop (n + 1) m ps f (afterLoop n k [p] g s) = afterLoop n (k + m) (p :: ps) f s := by
  simp [afterLoop, slotWriteFrom, Source.advance_advance, Nat.add_assoc, Nat.add_comm 1, Nat.mul_add, Nat.add_comm 188]

/-- Step 2 run from the same point of the stream delivers the same packets, whatever was produced before; only at a dry
source does it matter whether anything was. -/
theorem fillLoop_resumed {left n n' : Nat} {s s' u : State} (hsame : SameStream s s') (hn' : 1 ≤ n')
    (h : fillLoop left n s = .next u) :
    ∃ m ps f q e, ps.length ≤ left ∧ u = finish (n + ps.length) e { afterLoop n m ps f s with pstate := q } ∧
      fillLoop left n' s' = .next (finish (n' + ps.length) (resumedKind e)
        { afterLoop n' m ps f s' with pstate := resumedState s.pstate q e }) := by
  induction left generalizing n n' s s' with
  | zero =>
    cases h
    refine ⟨0, [], s.frm, s.pstate, .none, Nat.le_refl 0, by simp [afterLoop, slotWriteFrom], ?_⟩
    rw [fillLoop, ← hsame.frm, ← hsame.pstate]
    simp [afterLoop, slotWriteFrom, resumedKind, resumedState]
  | succ left ih =>
    cases htake : s.src.take 188 with
    | none => rw [fillLoop_blocks htake] at h; cases h
    | some bytes =>
      have htake' : s'.src.take 188 = some bytes := by rw [hsame.src, htake]
      by_cases hover : s.FrameOverflows
      · rw [fillLoop_overflow hover] at h; cases h
      obtain ⟨hread, hroom⟩ := room_of_not_frameOverflows htake hover
      by_cases hgood : GoodFrame bytes
      · have hroom' : s'.Room 188 1 := by
          simpa only [State.Room, hsame.cfg, hsame.bytesRead, hsame.bytesParsed, hsame.packetsParsed] using hroom hgood
        rw [fillLoop_good htake hgood (hroom hgood)] at h
        obtain ⟨m, ps, f, q, e, hle, rfl, h'⟩ :=
          ih (n' := n' + 1) ⟨hsame.toSameControl.afterLoop n n' 188 rfl bytes bytes, rfl, congrArg (Source.advance 188) hsame.src⟩
            (Nat.le_add_left ..) h
        refine ⟨188 + m, packetAt bytes 0 :: ps, f, q, e, Nat.succ_le_succ hle, ?_, ?_⟩
        · rw [afterLoop_afterLoop, List.length_cons, Nat.add_assoc, Nat.add_comm 1]
        · rw [fillLoop_good htake' hgood hroom', h', afterLoop_afterLoop, List.length_cons, Nat.add_assoc, Nat.add_comm 1]
          rfl
      · rw [fillLoop_stops htake hgood hread] at h
        cases h
        refine ⟨bytes.length, [], stopFrame bytes s.frm, stopState n bytes.length s.pstate, stopKind n bytes.length,
          Nat.zero_le _, rfl, ?_⟩
        rw [fillLoop_stops htake' hgood (by rw [hsame.cfg, hsame.bytesRead]; exact hread), stopAt,
          stopKind_resumed hn' n, stopState_resumed hn' n, hsame.frm, hsame.pstate]
        rfl

/-- Step 2 started in SYNC moves to EXHAUSTED exactly when it ends with EndOfStream (60_exceptions R189). -/
theorem fillLoop_exhausted_iff {left n : Nat} {s u : State} (hs : s.pstate = .sync) (h : fillLoop left n s = .next u) :
    u.pstate = .exhausted ↔ u.resErr = .endOfStream := by
  obtain ⟨m, ps, f, q, e, hend, rfl, -⟩ := fillLoop_cases h
  rw [finish_pstate, finish_resErr]
  rw [hs] at hend
  cases hend <;> simp

/-- Where a FILL ends, no counter and no byte of the stream moves. -/
theorem sameStream_of_finish (n : Nat) (e : ErrKind) (v : State) : SameStream (finish n e v) v where
  bytesRead := (finish_bytesRead ..).symm
  bytesParsed := (finish_bytesParsed ..).symm
  packetsParsed := (finish_packetsParsed ..).symm
  cfg := (finish_cfg ..).symm
  pstate := (finish_pstate ..).symm
  frm := (finish_frm ..).symm
  src := (finish_src ..).symm

/-- Settles O33: the longer FILL goes on where the first one filled its slots, and there does what the second one does. -/
theorem splitBatchesLoseNothing : Obligations.SplitBatchesLoseNothing := by
  intro s t u a b c hc hmax h he hcount hu
  have hfit : a.toNat + b.toNat < 2 ^ 16 := hc ▸ c.isLt
  obtain ⟨v, rfl, hv, hlonger⟩ := execFill_extends h he hcount
  obtain ⟨⟨hpos, -, -⟩, -⟩ := execFill_next.1 h
  have hloop : fillLoop b.toNat 0 (finish a.toNat .none v) = .next u := by
    have hacc := (execFill_next.1 hu).2
    rwa [fillAccepted, finish_pstate, hv] at hacc
  have hexh := fillLoop_exhausted_iff (by rw [finish_pstate, hv]) hloop
  obtain ⟨m, ps, f, q, e, hle, rfl, hresumed⟩ := fillLoop_resumed (sameStream_of_finish a.toNat .none v) hpos hloop
  refine ⟨_, by rw [exec_fill, hlonger c (by omega) hmax, hc, Nat.add_sub_cancel_left]; exact hresumed, ?_⟩
  rw [finish_pstate, finish_resErr] at hexh
  rw [finish_resCount_toNat (by omega), finish_resCount_toNat (by omega)]
  simp only [finish_src, finish_bytesRead, finish_bytesParsed, finish_packetsParsed, finish_pstate, finish_resErr,
    finish_slots, Nat.zero_add, true_and]
  refine ⟨?_, ?_, ?_, ?_, fun hq => ?_, fun hq => ?_, fun k hk => ?_, fun k hk => ?_⟩
  · simp only [afterLoop, finish_src]
  · simp only [afterLoop, finish_bytesRead]
  · simp only [afterLoop, finish_bytesParsed]
  · simp only [afterLoop, finish_packetsParsed]
  · have hne : e ≠ .endOfStream := mt hexh.2 hq
    exact ⟨if_neg hne, if_neg hne⟩
  · have heos : e = .endOfStream := hexh.1 hq
    exact ⟨by rw [resumedState, if_pos heos, hv], if_pos heos⟩
  · exact slotLookup_writeFrom_lt hk ps v.slots
  · have hfirst := slotLookup_writeFrom 0 ps hk (finish a.toNat .none v).slots
    rw [Nat.zero_add] at hfirst
    exact (slotLookup_writeFrom a.toNat ps hk v.slots).trans hfirst.symm

/-! ## Two streams with the same markers -/

/-- Two sources of equal length and ending that agree at every 188th byte. -/
structure MarkersAlike (src src' : Source) : Prop where
  length : src'.bytes.length = src.bytes.length
  after : src'.after = src.after
  markers : ∀ i, byteAt src'.bytes (188 * i) = byteAt src.bytes (188 * i)

theorem MarkersAlike.symm {src src' : Source} (h : MarkersAlike src src') : MarkersAlike src' src :=
  ⟨h.length.symm, h.after.symm, fun i => (h.markers i).symm⟩

theorem MarkersAlike.advance {src src' : Source} (h : MarkersAlike src src') :
    MarkersAlike (src.advance 188) (src'.advance 188) where
  length := by simp only [Source.advance, List.length_drop, h.length]
  after := by simp only [Source.advance, h.after, h.length]
  markers i := by
    have hnext := h.markers (i + 1)
    rw [Nat.mul_succ, Nat.add_comm] at hnext
    simpa only [Source.advance, byteAt_drop] using hnext

/-- What of a read steers step 2: whether it answers, its length and its first byte. -/
def readView (r : Option (List Byte)) : Option (Nat × Byte) := r.map fun bytes => (bytes.length, byteAt bytes 0)

theorem MarkersAlike.readView_take {src src' : Source} (h : MarkersAlike src src') :
    readView (src'.take 188) = readView (src.take 188) := by
  have hfirst : byteAt src'.bytes 0 = byteAt src.bytes 0 := h.markers 0
  unfold Source.take
  rw [h.length, h.after]
  split
  · simp only [readView, Option.map_some, List.length_take, h.length, byteAt_take (by decide : 0 < 188), hfirst]
  · cases src.after with
    | ended => simp only [readView, Option.map_some, h.length, hfirst]
    | silent => rfl
    | endless next =>
      simp only [readView, Option.map_some, List.length_append, h.length]
      rcases Nat.eq_zero_or_pos src.bytes.length with hz | hpos
      · rw [List.eq_nil_of_length_eq_zero hz, List.eq_nil_of_length_eq_zero (h.length.trans hz)]
      · rw [byteAt_append hpos, byteAt_append (h.length ▸ hpos), hfirst]

/-- Two states that differ in the bytes of their sources between the markers, and in what those bytes left in WIN, FRM, the
slots and the record. -/
structure SteeredAlike (s s' : State) : Prop extends SameControl s s' where
  src : MarkersAlike s.src s'.src

theorem SteeredAlike.symm {s s' : State} (h : SteeredAlike s s') : SteeredAlike s' s :=
  ⟨h.toSameControl.symm, h.src.symm⟩

theorem controlView_finish (n : Nat) (e : ErrKind) (s : State) : controlView (.next (finish n e s)) =
    .next (s.pstate, BitVec.ofNat 16 n, e, s.bytesRead, s.bytesParsed, s.packetsParsed) := by
  simp only [controlView, andThen_next, finish_pstate, finish_resCount, finish_resErr, finish_bytesRead,
    finish_bytesParsed, finish_packetsParsed]

/-- A read of one state is answered in the other by one of the same length and with the same first byte. -/
theorem SteeredAlike.take {s s' : State} (h : SteeredAlike s s') {bytes : List Byte} (htake : s.src.take 188 = some bytes) :
    ∃ bytes', s'.src.take 188 = some bytes' ∧ bytes'.length = bytes.length ∧ byteAt bytes' 0 = byteAt bytes 0 := by
  have hview := h.src.readView_take
  rw [htake] at hview
  cases htake' : s'.src.take 188 with
  | none => rw [htake'] at hview; cases hview
  | some bytes' =>
    rw [htake'] at hview
    injection hview with hview
    exact ⟨bytes', rfl, congrArg Prod.fst hview, congrArg Prod.snd hview⟩

theorem SteeredAlike.frameOverflows {s s' : State} (h : SteeredAlike s s') (hover : s.FrameOverflows) :
    s'.FrameOverflows := by
  obtain ⟨bytes, htake, hover⟩ := hover
  obtain ⟨bytes', htake', hlen, hfirst⟩ := h.take htake
  refine ⟨bytes', htake', ?_⟩
  rwa [GoodFrame, hlen, hfirst, h.cfg, h.bytesRead, h.bytesParsed, h.packetsParsed]

/-- Read by read, step 2 takes the same branch in both states. -/
theorem fillLoop_controlView {left n : Nat} {s s' : State} (h : SteeredAlike s s') :
    controlView (fillLoop left n s') = controlView (fillLoop left n s) := by
  induction left generalizing n s s' with
  | zero =>
    rw [fillLoop, fillLoop, controlView_finish, controlView_finish, h.pstate, h.bytesRead, h.bytesParsed, h.packetsParsed]
  | succ left ih =>
    cases htake : s.src.take 188 with
    | none =>
      have htake' : s'.src.take 188 = none := by
        have hview := h.src.readView_take
        rw [htake] at hview
        exact Option.map_eq_none_iff.1 hview
      rw [fillLoop_blocks htake, fillLoop_blocks htake']
    | some bytes =>
      obtain ⟨bytes', htake', hlen, hfirst⟩ := h.take htake
      by_cases hover : s.FrameOverflows
      · rw [fillLoop_overflow hover, fillLoop_overflow (h.frameOverflows hover)]
      have hover' : ¬s'.FrameOverflows := mt h.symm.frameOverflows hover
      obtain ⟨hread, hroom⟩ := room_of_not_frameOverflows htake hover
      obtain ⟨hread', hroom'⟩ := room_of_not_frameOverflows htake' hover'
      have hgoodIff : GoodFrame bytes' ↔ GoodFrame bytes := by rw [GoodFrame, GoodFrame, hlen, hfirst]
      by_cases hgood : GoodFrame bytes
      · have hgood' := hgoodIff.2 hgood
        rw [fillLoop_good htake hgood (hroom hgood), fillLoop_good htake' hgood' (hroom' hgood')]
        exact ih ⟨h.toSameControl.afterLoop n n 188 (ps := [packetAt bytes 0]) (ps' := [packetAt bytes' 0]) rfl bytes bytes',
          h.src.advance⟩
      · rw [fillLoop_stops htake hgood hread, fillLoop_stops htake' (mt hgoodIff.1 hgood) hread', stopAt, stopAt,
          controlView_finish, controlView_finish, hlen, h.pstate]
        simp only [afterLoop, h.bytesRead, h.bytesParsed, h.packetsParsed]

/-- Settles O34: in SYNC a FILL is step 2, and the two states differ only between the markers. -/
theorem onlyMarkersSteerFill : Obligations.OnlyMarkersSteerFill := by
  intro s cap bytes hp hlen hmarkers
  have halike : SteeredAlike s { s with src := ⟨bytes, s.src.after⟩ } :=
    ⟨⟨⟨rfl, rfl, rfl⟩, rfl, rfl⟩, hlen, rfl, hmarkers⟩
  by_cases hallow : FillAllowed cap.toNat s
  · have hloop : ∀ u : State, u.pstate = .sync → FillAllowed cap.toNat u →
        exec (.fill cap) u = fillLoop cap.toNat 0 u := fun u hu hallow => by
      rw [exec_fill, execFill, if_pos hallow, fillAccepted, hu]
    rw [hloop s hp hallow, hloop { s with src := ⟨bytes, s.src.after⟩ } hp hallow]
    exact fillLoop_controlView halike
  · rw [exec_fill, exec_fill, execFill_out_of_contract hallow,
      execFill_out_of_contract (s := { s with src := ⟨bytes, s.src.after⟩ }) hallow]

end Sys2Proof.Machine
end
